-- ==== Sys2Proof/Word.lean ====
section
/-! DEFINITION. The two word types of the block: every value is an unsigned bit vector of stated width (00_scope.md R9). -/

namespace Sys2Proof

/-- One byte: of record memory (R28), or the command word (R65). -/
abbrev Byte := BitVec 8

/-- A 64-bit value: a packed word, a time, an address, a field value (00_scope.md R7). -/
abbrev Word := BitVec 64

end Sys2Proof
end

