-- ==== Sys2Proof/Syntax.lean ====
section
/-! DEFINITION. The commands of the block (30_encoding.md R67), the ports they name (10_state.md R21, R22), and
the host's side: operands, transactions, assembler lines and pseudo-instructions (30_encoding.md R72, R73). -/

namespace Sys2Proof

/-- The four field descriptors of a packed word (R61). -/
inductive Field where
  | dt | x | y | p
deriving DecidableEq, Repr

/-- The commands, one constructor per row of the opcode map (R67). -/
inductive Instr where
  | monoEnc
  | monoDxyp
  | monoDtxyp
  | monoDt
  | trigEnc
  | trigDp
  | trigDtp
  | fieldUnpk (f : Field)
  | fieldPack (f : Field)
  | recLd
  | recSt
deriving DecidableEq, Repr

/-- The operand ports of a transaction (R21); the ninth input port, `cmd`, is a field of `Line` of its own. -/
inductive InPort where
  | p | x | y | dt | w | tb | v | addr
deriving DecidableEq, Repr

/-- The output ports of a transaction (R22). -/
inductive OutPort where
  | fault | wOut | t | xOut | yOut | pOut | vOut
deriving DecidableEq, Repr

/-- What the host puts on a port (R72): a literal, a host value `%name` bound by an earlier line, or the address
of record `i` of the stream at `base` (R73). -/
inductive Operand where
  | lit (value : Word)
  | val (name : Nat)
  | record (base i : Operand)
deriving DecidableEq, Repr

/-- One transaction as the host issues it (R74): the command byte, the listed ports with their operands, and the
output ports whose values the host binds to names (R72). -/
structure Line where
  cmd     : Byte
  args    : List (InPort × Operand)
  results : List (Nat × OutPort)
deriving DecidableEq, Repr

/-- One thing the host does: it issues a transaction (R25); it, or another agent that shares the record memory,
writes one byte of it (R28, R52); or it resets the block (R140). -/
inductive HostMove where
  | transact (l : Line)
  | writeByte (addr : Nat) (value : Byte)
  | reset
deriving DecidableEq, Repr

/-- One line of assembler (R72): `names = instr operands`. -/
structure AsmLine where
  instr    : Instr
  operands : List Operand
  names    : List Nat
deriving DecidableEq, Repr

/-- The pseudo-instructions (R73). -/
inductive Pseudo where
  | evLd (name : Nat) (base i : Operand)
  | evSt (base i w : Operand)
  | monoPut (addr p x y dt : Operand)
  | trigPut (addr p dt : Operand)
  | trigEncM (name : Nat) (p dt : Operand)
  | trigDt (name : Nat) (w tb : Operand)
deriving DecidableEq, Repr

/-- One line of a source program: a real line or a pseudo-instruction. -/
inductive Stmt where
  | line (l : AsmLine)
  | pseudo (q : Pseudo)
deriving DecidableEq, Repr

end Sys2Proof
end

