-- ==== Sys2Proof/Machine/State.lean ====
section
/-! DEFINITION. The machine's state (10_state.md R30, with the ports of R21 and R22, the index of R25 and the host's
side of 30_encoding.md R72), its reset (R31), and the named reasons a step can stop. -/

namespace Sys2Proof.Machine

/-- Record memory (R28): (address, byte) pairs, addresses strictly rising, no byte 0 listed. -/
abbrev Memory := List Host.Cell

/-- What an address that is not listed reads as (log 2). -/
def Memory.unlisted : Byte := 0

/-- The canonical form: addresses strictly rising, and no entry equal to what an unlisted address reads as. -/
abbrev Memory.wf (m : Memory) : Prop :=
  m.Pairwise (fun c d => c.1 < d.1) ∧ ∀ c ∈ m, c.2 ≠ Memory.unlisted

/-- The input ports of the transaction being presented (R21). -/
structure InPorts where
  cmd  : BitVec 8
  p    : BitVec 1
  x    : BitVec 32
  y    : BitVec 32
  dt   : BitVec 32
  w    : BitVec 64
  tb   : BitVec 64
  v    : BitVec 64
  addr : BitVec 64
deriving DecidableEq, Repr

/-- The output ports (R22). A port that is not driven holds no value (R23). -/
structure OutPorts where
  fault : Option (BitVec 4) := none
  wOut  : Option (BitVec 64) := none
  t     : Option (BitVec 64) := none
  xOut  : Option (BitVec 16) := none
  yOut  : Option (BitVec 15) := none
  pOut  : Option (BitVec 1) := none
  vOut  : Option (BitVec 64) := none
deriving DecidableEq, Repr

/-- The two faults of the block, each with the information it records (60_exceptions.md R121). -/
inductive FaultCause where
  /-- The command byte spells no operation (R122). -/
  | illegalCommand (cmd : Byte)
  /-- A record access outside the buffer (R123). -/
  | recordOutOfBounds (addr : Word)
deriving DecidableEq, Repr

/-- One entry of the fault log: the transaction's index, and the fault with its code and information (R30, R134). -/
structure FaultEntry where
  index : Nat
  cause : FaultCause
deriving DecidableEq, Repr

/-- A host value `%name` (R72): bound to what its output port held, or to no value (R23). -/
structure HostVal where
  name  : Nat
  value : Option Word
deriving DecidableEq, Repr

/-- The state. The block itself keeps nothing between transactions (R20, R29): `mem` is the caller's, `faults` is the
run's bookkeeping (R30), `inp` and `out` are the ports of one transaction, the rest is the host's. -/
structure State where
  /-- BUF_LEN, fixed when the block is made (R7, R27). -/
  bufLen : Nat
  /-- Record memory M (R28). -/
  mem    : Memory
  /-- The fault log, never cleared (R30, R134). -/
  faults : List FaultEntry
  /-- The index of the host's next transaction (R25). -/
  index  : Nat
  /-- The input ports, while a transaction drives them (R21, R31). -/
  inp    : Option InPorts
  /-- The output ports of the transaction just performed (R22, R23). -/
  out    : OutPorts
  /-- The host values bound so far (R20, R72). -/
  vals   : List HostVal
  /-- What the host has still to do, in order (R25, R28, R52, R140). -/
  moves  : List HostMove
deriving DecidableEq, Repr

/-- Why the machine stops with a fault. The block's own faults (R121) are NOT here: they leave a next state. -/
inductive Fault where
  /-- Raised by a meaning called while no transaction drives the input ports, so that the operands hold no value
  (R31). `step` never raises it. Safe: the machine stops (log 12). -/
  | noTransaction
deriving DecidableEq, Repr

/-- Why the model gives no step. Each but the first is the host's program breaking a rule on host values. -/
inductive Refusal where
  /-- Raised by `exec` for an instruction without a meaning. No arm raises it now. Safe: the machine stops. -/
  | notModelled (mnemonic : String)
  /-- Raised by `step` when a line uses a host value that no earlier line bound (R72). Safe: the machine stops. -/
  | unboundName (name : Nat)
  /-- Raised by `step` when a line uses a host value bound to an output port that held no value (R23). Safe: the
  machine stops, as R23 asks. -/
  | undrivenOutput (name : Nat)
  /-- Raised by `step` when a line binds a name that is bound already (R72). Safe: the machine stops. -/
  | nameBoundTwice (name : Nat)
deriving DecidableEq, Repr

/-- The machine right after reset with nothing launched (R31): no port holds a value, the log is empty, the index
is 0. DESIGN CHOICE, log 1 and log 3: no record memory is provided yet (BUF_LEN 0), and the host's list is empty. -/
def State.reset : State where
  bufLen := 0
  mem := []
  faults := []
  index := 0
  inp := none
  out := {}
  vals := []
  moves := []

end Sys2Proof.Machine
end

