-- ==== Sys2Proof/Machine/Flags.lean ====
section
/-! DEFINITION. The block has no flag and no condition code (10_state.md R26). Its only status is the `fault` output of
the current transaction: the codes and the recorded information of 60_exceptions.md R121. -/

namespace Sys2Proof.Machine

/-- The fault code of a transaction that completed (R121). -/
def faultNone : BitVec 4 := 0

/-- The fault code of a fault (R121). -/
def FaultCause.code : FaultCause → BitVec 4
  | .illegalCommand _ => 1
  | .recordOutOfBounds _ => 2

/-- The information a fault records (R121): the command byte, zero-extended, or the address. -/
def FaultCause.info : FaultCause → Word
  | .illegalCommand c => c.setWidth 64
  | .recordOutOfBounds a => a

/-- The outputs of a transaction that faulted: `fault` alone holds a value (R23, R125). -/
def faultOutputs (c : FaultCause) : OutPorts := { fault := some c.code }

end Sys2Proof.Machine
end

