-- ==== Sys2Proof/Machine/Ops.lean ====
section
/-! DEFINITION. The named operations: bytes and records of memory (20_memory.md R42 to R46), the beginning and the end
of a transaction, and taking a fault (60_exceptions.md R125). -/

namespace Sys2Proof.Machine

/-- The byte at an address. -/
def Memory.read : Memory → Nat → Byte
  | [], _ => Memory.unlisted
  | c :: m, a => if c.1 = a then c.2 else Memory.read m a

/-- Memory with the byte at an address no longer listed. -/
def Memory.erase (m : Memory) (a : Nat) : Memory := m.filter (fun c => c.1 ≠ a)

/-- Memory with a listed byte put at its place in the order. -/
def Memory.insert : Memory → Nat → Byte → Memory
  | [], a, v => [(a, v)]
  | c :: m, a, v =>
    if a < c.1 then (a, v) :: c :: m
    else if a = c.1 then (a, v) :: m
    else c :: Memory.insert m a v

/-- Memory with one byte written. -/
def Memory.write (m : Memory) (a : Nat) (v : Byte) : Memory :=
  if v = Memory.unlisted then m.erase a else m.insert a v

/-- Memory with a list of bytes written from an address upward. -/
def Memory.writeBytes : Memory → Nat → List Byte → Memory
  | m, _, [] => m
  | m, a, v :: vs => Memory.writeBytes (m.write a v) (a + 1) vs

/-- Byte `k` of a word: bits 8k+7..8k (R42). -/
def wordByte (w : Word) (k : Nat) : Byte := w.extractLsb' (8 * k) 8

/-- `MemRead(a, 8)`: eight bytes, little-endian (R42). -/
def Memory.readRecord (m : Memory) (a : Nat) : Word :=
  m.read (a + 7) ++ m.read (a + 6) ++ m.read (a + 5) ++ m.read (a + 4)
    ++ m.read (a + 3) ++ m.read (a + 2) ++ m.read (a + 1) ++ m.read a

/-- The eight bytes of a record, from its address upward (R41, R43). -/
def wordBytes (w : Word) : List Byte :=
  [wordByte w 0, wordByte w 1, wordByte w 2, wordByte w 3, wordByte w 4, wordByte w 5, wordByte w 6, wordByte w 7]

/-- `MemWrite(a, 8, w)`: eight bytes, little-endian (R43). -/
def Memory.writeRecord (m : Memory) (a : Nat) (w : Word) : Memory := m.writeBytes a (wordBytes w)

/-- A record access is in bounds (R46); the test is on unbounded naturals. -/
abbrev State.inBounds (s : State) (a : Word) : Prop := a.toNat + 8 ≤ s.bufLen

/-- The machine as the host launches it (R141, R143): record memory of the given bytes, so that BUF_LEN is their number,
and the host's list. -/
def State.launch (bytes : List Byte) (moves : List HostMove) : State :=
  { State.reset with bufLen := bytes.length, mem := Memory.writeBytes [] 0 bytes, moves := moves }

/-- No transaction drives the ports: they hold no value (R23, R31). -/
def State.silent (s : State) : State := { s with inp := none, out := {} }

/-- The host, or another agent, writes one byte (R28, R52). An address outside 0 to BUF_LEN-1 is no byte of record
memory (R40), so such a write does not touch it (DEDUCED, log 10). -/
def State.landByte (s : State) (a : Nat) (v : Byte) : State :=
  if a < s.bufLen then { s with mem := s.mem.write a v } else s

/-- A transaction begins: the host's list moves on and the input ports are driven (R21, R30). -/
def State.issue (s : State) (rest : List HostMove) (ports : InPorts) : State :=
  { s with moves := rest, inp := some ports, out := {} }

/-- A transaction that passes its checks ends: the listed outputs are driven, `fault` is 0, and the index advances
by one (R22, R25, R121). -/
def State.complete (s : State) (o : OutPorts) : State :=
  { s with out := { o with fault := some faultNone }, index := s.index + 1, inp := none }

/-- A transaction faults (R125): the `fault` output and the log change, and nothing else; the index advances as after
every transaction (R25, R129). -/
def State.takeFault (s : State) (c : FaultCause) : State :=
  { s with out := faultOutputs c, faults := s.faults ++ [⟨s.index, c⟩], index := s.index + 1, inp := none }

/-- A meaning reads the input ports of the transaction now presented (R21). -/
def State.transact (s : State) (k : InPorts → State) : Host.Outcome State Fault Refusal :=
  match s.inp with
  | some ports => .next (k ports)
  | none => .fault .noTransaction

/-- Something the host does after a transaction that left a next state. -/
def onNext (f : State → State) : Host.Outcome State Fault Refusal → Host.Outcome State Fault Refusal
  | .next s => .next (f s)
  | .fault r => .fault r
  | .refused r => .refused r

end Sys2Proof.Machine
end

