-- ==== Sys2Proof/Machine/BitField.lean ====
section
/-! DEFINITION. The packed word's fields (30_encoding.md R60, R61), the two bit-field primitives (40_bit_field.md R80,
R81) and the two commands that expose them (R82, R83). -/

namespace Sys2Proof

/-- lo(F) (R61). -/
abbrev Field.lo : Field → Nat
  | .dt => 0
  | .x => 32
  | .y => 48
  | .p => 63

/-- width(F) (R61). -/
abbrev Field.width : Field → Nat
  | .dt => 32
  | .x => 16
  | .y => 15
  | .p => 1

/-- The value mask ones(width(F)) (R61). -/
def Field.ones (f : Field) : Word := BitVec.ofNat 64 (2 ^ f.width - 1)

/-- The in-word mask mask(F) (R61). -/
def Field.mask (f : Field) : Word := f.ones <<< f.lo

namespace Machine

/-- `unpack(w, F)` (R80). -/
def unpack (w : Word) (f : Field) : BitVec f.width := w.extractLsb' f.lo f.width

/-- `pack(w, F, v)` for a value of any width (R81). -/
def pack {n : Nat} (w : Word) (f : Field) (v : BitVec n) : Word :=
  (w &&& ~~~f.mask) ||| (((v.setWidth f.width).setWidth 64) <<< f.lo)

/-- FIELD.UNPK.F (R82). -/
def execFieldUnpk (f : Field) (s : State) : Host.Outcome State Fault Refusal :=
  s.transact fun i => s.complete { vOut := some ((unpack i.w f).setWidth 64) }

/-- FIELD.PACK.F (R83). -/
def execFieldPack (f : Field) (s : State) : Host.Outcome State Fault Refusal :=
  s.transact fun i => s.complete { wOut := some (pack i.w f i.v) }

end Machine

end Sys2Proof
end

