-- ==== Sys2Proof/Machine/MonoCodec.lean ====
section
/-! DEFINITION. The mono event codec: time reconstruction, the encoder and the three decoders (41_mono_codec.md R90 to
R94). -/

namespace Sys2Proof.Machine

/-- `abs_time(w, tb)`: the sum is modulo 2^64 (R90). -/
def absTime (w tb : Word) : Word := tb + (unpack w .dt).setWidth 64

/-- The packed word of a mono event (R91). -/
def monoWord (p : BitVec 1) (x y dt : BitVec 32) : Word :=
  pack (pack (pack (pack 0 .p p) .y y) .x x) .dt dt

/-- MONO.ENC (R91). -/
def execMonoEnc (s : State) : Host.Outcome State Fault Refusal :=
  s.transact fun i => s.complete { wOut := some (monoWord i.p i.x i.y i.dt) }

/-- MONO.DXYP (R92). -/
def execMonoDxyp (s : State) : Host.Outcome State Fault Refusal :=
  s.transact fun i => s.complete
    { xOut := some (unpack i.w .x), yOut := some (unpack i.w .y), pOut := some (unpack i.w .p) }

/-- MONO.DTXYP (R93). -/
def execMonoDtxyp (s : State) : Host.Outcome State Fault Refusal :=
  s.transact fun i => s.complete
    { t := some (absTime i.w i.tb), xOut := some (unpack i.w .x), yOut := some (unpack i.w .y),
      pOut := some (unpack i.w .p) }

/-- MONO.DT (R94). -/
def execMonoDt (s : State) : Host.Outcome State Fault Refusal :=
  s.transact fun i => s.complete { t := some (absTime i.w i.tb) }

end Sys2Proof.Machine
end

