-- ==== Sys2Proof/Machine/Record.lean ====
section
/-! DEFINITION. Record access (43_record_access.md R110, R111): the bounds check precedes every byte (R126). -/

namespace Sys2Proof.Machine

/-- REC.LD (R110). -/
def execRecLd (s : State) : Host.Outcome State Fault Refusal :=
  s.transact fun i =>
    if s.inBounds i.addr then s.complete { wOut := some (s.mem.readRecord i.addr.toNat) }
    else s.takeFault (.recordOutOfBounds i.addr)

/-- REC.ST (R111). -/
def execRecSt (s : State) : Host.Outcome State Fault Refusal :=
  s.transact fun i =>
    if s.inBounds i.addr then
      State.complete { s with mem := s.mem.writeRecord i.addr.toNat i.w } {}
    else s.takeFault (.recordOutOfBounds i.addr)

end Sys2Proof.Machine
end

