-- ==== Sys2Proof/Machine/TriggerCodec.lean ====
section
/-! DEFINITION. The trigger event codec (42_trigger_codec.md R100 to R102). -/

namespace Sys2Proof.Machine

/-- The packed word of a trigger event: bits 62..32 are 0 (R100). -/
def trigWord (p : BitVec 1) (dt : BitVec 32) : Word := pack (pack 0 .p p) .dt dt

/-- TRIG.ENC (R100). -/
def execTrigEnc (s : State) : Host.Outcome State Fault Refusal :=
  s.transact fun i => s.complete { wOut := some (trigWord i.p i.dt) }

/-- TRIG.DP (R101). -/
def execTrigDp (s : State) : Host.Outcome State Fault Refusal :=
  s.transact fun i => s.complete { pOut := some (unpack i.w .p) }

/-- TRIG.DTP (R102). -/
def execTrigDtp (s : State) : Host.Outcome State Fault Refusal :=
  s.transact fun i => s.complete { t := some (absTime i.w i.tb), pOut := some (unpack i.w .p) }

end Sys2Proof.Machine
end

