-- ==== Sys2Proof/Machine/Dispatch.lean ====
section
/-! DEFINITION. The meaning of every command, one arm per row of the opcode map (30_encoding.md R67). -/

namespace Sys2Proof.Machine

/-- What a command does to the state in which its transaction is presented. -/
def exec (i : Instr) (s : State) : Host.Outcome State Fault Refusal :=
  match i with
  | .monoEnc => Sys2Proof.Machine.execMonoEnc s
  | .monoDxyp => Sys2Proof.Machine.execMonoDxyp s
  | .monoDtxyp => Sys2Proof.Machine.execMonoDtxyp s
  | .monoDt => Sys2Proof.Machine.execMonoDt s
  | .trigEnc => Sys2Proof.Machine.execTrigEnc s
  | .trigDp => Sys2Proof.Machine.execTrigDp s
  | .trigDtp => Sys2Proof.Machine.execTrigDtp s
  | .fieldUnpk f => Sys2Proof.Machine.execFieldUnpk f s
  | .fieldPack f => Sys2Proof.Machine.execFieldPack f s
  | .recLd => Sys2Proof.Machine.execRecLd s
  | .recSt => Sys2Proof.Machine.execRecSt s

end Sys2Proof.Machine
end

