-- ==== Sys2Proof/Config.lean ====
section
/-! DEFINITION. The free values: what the spec lets be any value. Each is an opaque constant, so that no proof can
see a value of it. -/

namespace Sys2Proof

/-- What an input port holds when transaction number `index` does not list it: any value (10_state.md R21,
30_encoding.md R72). DESIGN CHOICE of form, log 7: a free value. -/
opaque Config.unlistedPort (index : Nat) (port : InPort) : Word

/-- What a port carries when the host puts a value on it that has more bits than the port: the spec states no
value (91_not_in_source.md, polarity). DESIGN CHOICE, log 8: a free value. -/
opaque Config.overWide (port : InPort) (value : Word) : Word

end Sys2Proof
end

