-- ==== Sys2Proof/Decode.lean ====
section
/-! DEFINITION. The command decoder, total on all 256 bytes (30_encoding.md R65 to R69), and the encoder written
from the same opcode map. -/

namespace Sys2Proof

/-- Why a command byte is ILLEGAL (R69). -/
inductive Illegal where
  /-- `rsv` is not 0. -/
  | reservedBits
  /-- `f` is not 0 on an operation without a selector. -/
  | selectorBits
  /-- `op` is 0xB to 0xF. -/
  | reservedOp
deriving DecidableEq, Repr

/-- `op`, bits 3..0 of the command byte (R65). -/
def cmdOp (c : Byte) : BitVec 4 := c.extractLsb' 0 4

/-- `f`, bits 5..4 of the command byte (R65). -/
def cmdField (c : Byte) : BitVec 2 := c.extractLsb' 4 2

/-- `rsv`, bits 7..6 of the command byte (R65). -/
def cmdRsv (c : Byte) : BitVec 2 := c.extractLsb' 6 2

/-- The field a selector value names (R66): every value is legal. -/
def fieldOfSelector (f : BitVec 2) : Field :=
  if f = 0 then .dt else if f = 1 then .x else if f = 2 then .y else .p

/-- The selector value of a field (R61). -/
def selectorOfField : Field → BitVec 2
  | .dt => 0
  | .x => 1
  | .y => 2
  | .p => 3

/-- The operations without a selector, by operation code (R67). -/
def plainOp (op : BitVec 4) : Option Instr :=
  match op.toNat with
  | 0x0 => some .monoEnc
  | 0x1 => some .monoDxyp
  | 0x2 => some .monoDtxyp
  | 0x3 => some .monoDt
  | 0x4 => some .trigEnc
  | 0x5 => some .trigDp
  | 0x6 => some .trigDtp
  | 0x9 => some .recLd
  | 0xA => some .recSt
  | _ => none

/-- `decode_cmd` (R68): the instruction a command byte spells, or why it is ILLEGAL. -/
def decodeCmd (c : Byte) : Except Illegal Instr :=
  if cmdRsv c ≠ 0 then .error .reservedBits
  else if cmdOp c = 0x7 then .ok (.fieldUnpk (fieldOfSelector (cmdField c)))
  else if cmdOp c = 0x8 then .ok (.fieldPack (fieldOfSelector (cmdField c)))
  else if cmdField c ≠ 0 then .error .selectorBits
  else match plainOp (cmdOp c) with
    | some i => .ok i
    | none => .error .reservedOp

/-- A command byte from its three fields (R65). -/
def cmdByte (f : BitVec 2) (op : BitVec 4) : Byte := (0 : BitVec 2) ++ f ++ op

/-- The command byte of an instruction (R67). -/
def encode : Instr → Byte
  | .monoEnc => cmdByte 0 0x0
  | .monoDxyp => cmdByte 0 0x1
  | .monoDtxyp => cmdByte 0 0x2
  | .monoDt => cmdByte 0 0x3
  | .trigEnc => cmdByte 0 0x4
  | .trigDp => cmdByte 0 0x5
  | .trigDtp => cmdByte 0 0x6
  | .fieldUnpk f => cmdByte (selectorOfField f) 0x7
  | .fieldPack f => cmdByte (selectorOfField f) 0x8
  | .recLd => cmdByte 0 0x9
  | .recSt => cmdByte 0 0xA

/-- The host's question: the instruction whose command byte is `w`. Every command is one 8-bit word (R70), so a
number of more than 8 bits is no command. -/
def decodeTableWord (_nbits w : Nat) : Option Instr :=
  if w < 256 then (decodeCmd (BitVec.ofNat 8 w)).toOption else none

end Sys2Proof
end

