-- ==== Sys2Proof/Machine/Operands.lean ====
section
/-! DEFINITION. Operands: which ports a command reads and drives (30_encoding.md R72), what a host operand's value is
(R72, R73), what each input port then carries (10_state.md R21), and the binding of results to host values (R72). -/

namespace Sys2Proof

/-- The width of an operand port (R21). -/
def InPort.width : InPort → Nat
  | .p => 1
  | .x => 32
  | .y => 32
  | .dt => 32
  | .w => 64
  | .tb => 64
  | .v => 64
  | .addr => 64

/-- The ports a command reads, in the order of its operands (R72). -/
def Instr.reads : Instr → List InPort
  | .monoEnc => [.p, .x, .y, .dt]
  | .monoDxyp => [.w]
  | .monoDtxyp => [.w, .tb]
  | .monoDt => [.w, .tb]
  | .trigEnc => [.p, .dt]
  | .trigDp => [.w]
  | .trigDtp => [.w, .tb]
  | .fieldUnpk _ => [.w]
  | .fieldPack _ => [.w, .v]
  | .recLd => [.addr]
  | .recSt => [.addr, .w]

/-- The ports a command drives beside `fault`, in the order of its results (R22, R72). -/
def Instr.drives : Instr → List OutPort
  | .monoEnc => [.wOut]
  | .monoDxyp => [.xOut, .yOut, .pOut]
  | .monoDtxyp => [.t, .xOut, .yOut, .pOut]
  | .monoDt => [.t]
  | .trigEnc => [.wOut]
  | .trigDp => [.pOut]
  | .trigDtp => [.t, .pOut]
  | .fieldUnpk _ => [.vOut]
  | .fieldPack _ => [.wOut]
  | .recLd => [.wOut]
  | .recSt => []

namespace Machine

/-- What a port carries, zero-extended to 64 bits (R21). -/
def InPorts.read (i : InPorts) : InPort → Word
  | .p => i.p.setWidth 64
  | .x => i.x.setWidth 64
  | .y => i.y.setWidth 64
  | .dt => i.dt.setWidth 64
  | .w => i.w
  | .tb => i.tb
  | .v => i.v
  | .addr => i.addr

/-- What an output port holds, zero-extended to 64 bits; nothing where it is not driven (R22, R23). -/
def OutPorts.read (o : OutPorts) : OutPort → Option Word
  | .fault => o.fault.map (·.setWidth 64)
  | .wOut => o.wOut
  | .t => o.t
  | .xOut => o.xOut.map (·.setWidth 64)
  | .yOut => o.yOut.map (·.setWidth 64)
  | .pOut => o.pOut.map (·.setWidth 64)
  | .vOut => o.vOut

/-- The host value of a name (R72); a name never bound is told from one bound to no value. -/
def lookupVal : List HostVal → Nat → Option HostVal
  | [], _ => none
  | h :: hs, n => if h.name = n then some h else lookupVal hs n

/-- The value of an operand (R72). The address of record `i` is `base + 8*i` modulo 2^64 (R73). A name that has no
value is refused (R23, R72). -/
def Operand.value (vals : List HostVal) : Operand → Except Refusal Word
  | .lit v => .ok v
  | .val n =>
    match lookupVal vals n with
    | none => .error (.unboundName n)
    | some ⟨_, none⟩ => .error (.undrivenOutput n)
    | some ⟨_, some v⟩ => .ok v
  | .record base i =>
    match Operand.value vals base, Operand.value vals i with
    | .ok b, .ok k => .ok (b + 8 * k)
    | .error r, _ => .error r
    | _, .error r => .error r

/-- The values of a line's listed ports; the first operand without a value refuses the line. -/
def argValues (vals : List HostVal) : List (InPort × Operand) → Except Refusal (List (InPort × Word))
  | [] => .ok []
  | (q, o) :: rest =>
    match Operand.value vals o, argValues vals rest with
    | .ok v, .ok vs => .ok ((q, v) :: vs)
    | .error r, _ => .error r
    | _, .error r => .error r

/-- The value put on a port: what the line lists for it, else any value (R21). The first listing counts (log 14). -/
def portValue (index : Nat) : List (InPort × Word) → InPort → Word
  | [], q => Config.unlistedPort index q
  | (r, v) :: rest, q => if r = q then v else portValue index rest q

/-- A value on a port narrower than 64 bits. A value that does not fit has no stated result: a free value (log 8). -/
def fitPort (q : InPort) (v : Word) : BitVec q.width :=
  if v.toNat < 2 ^ q.width then v.setWidth q.width else (Config.overWide q v).setWidth q.width

/-- The input ports of a transaction (R21). A value wider than `x` or `y` gives its low bits, since a wider input would
change no result (92_eei_decisions.md D3; DEDUCED, log 8). -/
def drivePorts (index : Nat) (cmd : Byte) (args : List (InPort × Word)) : InPorts where
  cmd := cmd
  p := fitPort .p (portValue index args .p)
  x := (portValue index args .x).setWidth 32
  y := (portValue index args .y).setWidth 32
  dt := fitPort .dt (portValue index args .dt)
  w := portValue index args .w
  tb := portValue index args .tb
  v := portValue index args .v
  addr := portValue index args .addr

/-- The first name a line would bind a second time (R72: each name is bound once). -/
def reboundName (bound : List Nat) : List (Nat × OutPort) → Option Nat
  | [] => none
  | (n, _) :: rest => if n ∈ bound then some n else reboundName (n :: bound) rest

/-- The names bound so far. -/
def State.boundNames (s : State) : List Nat := s.vals.map HostVal.name

/-- The host presents a line: the input ports it drives, or why its program is refused. -/
def State.present (s : State) (l : Line) : Except Refusal InPorts :=
  match reboundName s.boundNames l.results with
  | some n => .error (.nameBoundTwice n)
  | none =>
    match argValues s.vals l.args with
    | .error r => .error r
    | .ok args => .ok (drivePorts s.index l.cmd args)

/-- A transaction of a command byte alone: every operand port is listed with 0, since a transaction presents every port
(R21), and no result is bound. -/
def bareLine (cmd : Byte) : Line where
  cmd := cmd
  args := [(.p, .lit 0), (.x, .lit 0), (.y, .lit 0), (.dt, .lit 0), (.w, .lit 0), (.tb, .lit 0), (.v, .lit 0),
    (.addr, .lit 0)]
  results := []

/-- The host binds a line's results to names, in order (R72). A port that holds no value gives its name no value (R23). -/
def State.bind (results : List (Nat × OutPort)) (s : State) : State :=
  { s with vals := s.vals ++ results.map (fun r => ⟨r.1, s.out.read r.2⟩) }

end Machine

end Sys2Proof
end

