-- ==== Sys2Proof/Machine/Step.lean ====
section
/-! DEFINITION. One step: the host's next move (10_state.md R25, R30). -/

namespace Sys2Proof.Machine

/-- A transaction in which the input ports are `ports` (R30): decode comes first (R126), then the command's rule. -/
def perform (s : State) : InPorts → Host.Outcome State Fault Refusal := fun ports =>
  match decodeCmd ports.cmd with
  | .ok i => exec i s
  | .error _ => .next (s.takeFault (.illegalCommand ports.cmd))

/-- One step. With nothing left to do the machine idles (log 4); a byte write changes record memory alone (R28); a reset
has no architectural effect (R140); a transaction presents its ports, is performed, and has its results bound (R30, R72). -/
def step (s : State) : Host.Outcome State Fault Refusal :=
  match s.moves with
  | [] => .next s.silent
  | .writeByte a v :: rest => .next (State.landByte { s.silent with moves := rest } a v)
  | .reset :: rest => .next { s.silent with moves := rest }
  | .transact l :: rest =>
    match s.present l with
    | .error r => .refused r
    | .ok ports => onNext (State.bind l.results) (perform (s.issue rest ports) ports)

/-- The transaction whose command byte is `w`, put where the next step takes its move (log 3). -/
def State.withFetchWord (s : State) (_nbits w : Nat) : State :=
  { s with moves := .transact (bareLine (BitVec.ofNat 8 w)) :: s.moves }

end Sys2Proof.Machine
end

