-- ==== Sys2Proof/Safety.lean ====
section
/-! DEFINITION. What counts as a safe run (60_exceptions.md R134), and the invariant of the machine. -/

namespace Sys2Proof

namespace Machine

/-- A run is clean when its fault log is empty: a faulted run satisfies no claim (10_state.md R30, R134). -/
abbrev State.Clean (s : State) : Prop := s.faults = []

/-- A log entry tells the truth: an IllegalCommand records a byte that spells no operation (R122), a RecordOutOfBounds an
address that is out of bounds (R123). -/
def FaultCause.Truthful (bufLen : Nat) : FaultCause → Prop
  | .illegalCommand c => ∀ i, decodeCmd c ≠ .ok i
  | .recordOutOfBounds a => bufLen < a.toNat + 8

/-- The operand outputs, all but `fault`, hold no value. -/
def OutPorts.Undriven (o : OutPorts) : Prop := { o with fault := none } = ({} : OutPorts)

/-- The outputs agree with R22, R23 and R121: codes 3 to 15 do not occur, and only a transaction that completed drives
a port other than `fault`. -/
def OutPorts.Coherent (o : OutPorts) : Prop :=
  (∀ c, o.fault = some c → c.toNat ≤ 2) ∧ (o.fault ≠ some faultNone → o.Undriven)

/-- What holds in every state a run goes through: memory is in canonical form and holds bytes 0 to BUF_LEN-1 only (R28,
R40); the log is truthful, its indexes strictly rise and lie below the host's index (R30, R134, R25); the outputs are
coherent (R22, R23, R121); each host value is bound once (R72). -/
structure State.Inv (s : State) : Prop where
  memCanonical : s.mem.wf
  memInBuffer  : ∀ c ∈ s.mem, c.1 < s.bufLen
  logTruthful  : ∀ e ∈ s.faults, e.cause.Truthful s.bufLen
  logOrdered   : s.faults.Pairwise (fun d e => d.index < e.index)
  logPast      : ∀ e ∈ s.faults, e.index < s.index
  outCoherent  : s.out.Coherent
  boundOnce    : s.boundNames.Nodup

end Machine

end Sys2Proof
end

