-- ==== Sys2Proof/Machine/Assembler.lean ====
section
/-! DEFINITION. The host's assembler: the transaction of a line, and the expansion of the pseudo-instructions
(30_encoding.md R72, R73). -/

namespace Sys2Proof

/-- The transaction of a line (R72): operands and results stand in the order of the command's ports. -/
def AsmLine.assemble (l : AsmLine) : Line where
  cmd := encode l.instr
  args := l.instr.reads.zip l.operands
  results := l.names.zip l.instr.drives

/-- The expansion of a pseudo-instruction, with a fresh host name for `%_k` (R73). -/
def Pseudo.expand (fresh : Nat) : Pseudo → List AsmLine
  | .evLd n base i => [⟨.recLd, [.record base i], [n]⟩]
  | .evSt base i w => [⟨.recSt, [.record base i, w], []⟩]
  | .monoPut a p x y dt => [⟨.monoEnc, [p, x, y, dt], [fresh]⟩, ⟨.recSt, [a, .val fresh], []⟩]
  | .trigPut a p dt => [⟨.trigEnc, [p, dt], [fresh]⟩, ⟨.recSt, [a, .val fresh], []⟩]
  | .trigEncM n p dt => [⟨.monoEnc, [p, .lit 0, .lit 0, dt], [n]⟩]
  | .trigDt n w tb => [⟨.trigDtp, [w, tb], [n, fresh]⟩]

/-- The names an operand uses. -/
def Operand.names : Operand → List Nat
  | .lit _ => []
  | .val n => [n]
  | .record base i => base.names ++ i.names

/-- The names a line uses or binds. -/
def AsmLine.allNames (l : AsmLine) : List Nat := l.operands.flatMap Operand.names ++ l.names

/-- The lines of a source line, with the name its pseudo-instruction takes for `%_k` (R73). -/
def Stmt.expand (fresh : Nat) : Stmt → List AsmLine
  | .line l => [l]
  | .pseudo q => q.expand fresh

/-- The names a source line uses or binds; the placeholder 0 stands for `%_k` and counts as one of them. -/
def Stmt.allNames (s : Stmt) : List Nat := (s.expand 0).flatMap AsmLine.allNames

/-- A number above every name of a source program. -/
def aboveNames (prog : List Stmt) : Nat := (prog.flatMap Stmt.allNames).foldr max 0 + 1

/-- The lines of a source program from a first fresh name on; each source line has a fresh name of its own to take. -/
def expandFrom (fresh : Nat) : List Stmt → List AsmLine
  | [] => []
  | s :: rest => s.expand fresh ++ expandFrom (fresh + 1) rest

/-- The lines of a source program, its pseudo-instructions expanded with names it does not use (R73). -/
def expandProgram (prog : List Stmt) : List AsmLine := expandFrom (aboveNames prog) prog

/-- The host's list of transactions for a source program. -/
def assembleProgram (prog : List Stmt) : List HostMove :=
  (expandProgram prog).map fun l => .transact l.assemble

end Sys2Proof
end

