-- ==== Sys2Proof/WellFormed.lean ====
section
/-! DEFINITION. Well-formed assembler lines and programs (30_encoding.md R72). Every term of `Instr` is well formed: a
command has no operand in its byte but the field selector, and every selector value is legal (R66). -/

namespace Sys2Proof

/-- A literal fits the port it is put on (10_state.md R21); other operands get their value when the line runs. -/
def Operand.fits (q : InPort) : Operand → Bool
  | .lit v => v.toNat < 2 ^ q.width
  | .val _ => true
  | .record _ _ => true

/-- A line is well formed: as many operands as the command reads ports, as many results as it drives, no result name
twice, every literal as wide as its port at most (R72). -/
def AsmLine.wf (l : AsmLine) : Bool :=
  l.operands.length == l.instr.reads.length && l.names.length == l.instr.drives.length
    && decide l.names.Nodup && (l.instr.reads.zip l.operands).all fun a => a.2.fits a.1

/-- A program is well formed over the names bound before it: every line is, every name used is bound by an earlier
line, and each name is bound once (R72). -/
def programWf (bound : List Nat) : List AsmLine → Bool
  | [] => true
  | l :: rest =>
    l.wf && (l.operands.flatMap Operand.names).all (· ∈ bound) && l.names.all (· ∉ bound)
      && programWf (bound ++ l.names) rest

end Sys2Proof
end

