-- ==== Sys2Proof/Certificates/Slice0/Obligations.lean ====
section
/-! DEFINITION. The statements about the machine, each from the numbered rules of the spec. That a next state has
`inp := none` is the model's reading of 10_state.md R31 (log 5): a transaction's ports end with it. -/

open Sys2Proof Sys2Proof.Machine

/-! ### Encodings -/

/-- 30_encoding.md R67, R68: a command byte spells a command exactly when it is one of that command's bytes in the opcode
map. -/
def Obligations.DecodeFollowsOpcodeMap : Prop :=
  ∀ (c : Byte) (i : Instr), decodeCmd c = .ok i ↔
    match i with
    | .monoEnc => c = 0x00
    | .monoDxyp => c = 0x01
    | .monoDtxyp => c = 0x02
    | .monoDt => c = 0x03
    | .trigEnc => c = 0x04
    | .trigDp => c = 0x05
    | .trigDtp => c = 0x06
    | .fieldUnpk .dt => c = 0x07
    | .fieldUnpk .x => c = 0x17
    | .fieldUnpk .y => c = 0x27
    | .fieldUnpk .p => c = 0x37
    | .fieldPack .dt => c = 0x08
    | .fieldPack .x => c = 0x18
    | .fieldPack .y => c = 0x28
    | .fieldPack .p => c = 0x38
    | .recLd => c = 0x09
    | .recSt => c = 0x0A

/-- 30_encoding.md R69, and the list of illegal bytes in 60_exceptions.md R122: the reserved bits, the unused selector and
the operations 0xB to 0xF are ILLEGAL, and nothing else is. -/
def Obligations.IllegalBytesAreExactlyTheReserved : Prop :=
  ∀ c : Byte, (∀ i, decodeCmd c ≠ .ok i) ↔
    c.toNat / 64 ≠ 0 ∨ 0xB ≤ c.toNat % 16 ∨ (c.toNat / 16 % 4 ≠ 0 ∧ c.toNat % 16 ≠ 7 ∧ c.toNat % 16 ≠ 8)

/-- 30_encoding.md R65 to R68: encoding and decoding agree in both directions, so every command has one byte for each
selector and no bit of a legal byte is dropped. -/
def Obligations.EncodeDecodeAgree : Prop :=
  (∀ i : Instr, decodeCmd (encode i) = .ok i) ∧
  (∀ (c : Byte) (i : Instr), decodeCmd c = .ok i → c = encode i)

/-- 30_encoding.md R65 and R67, written out bit by bit: `rsv f op`. -/
def Obligations.WrittenOutBytesDecode : Prop :=
  decodeCmd 0b00000000#8 = .ok .monoEnc ∧ decodeCmd 0b00000110#8 = .ok .trigDtp ∧
  decodeCmd 0b00010111#8 = .ok (.fieldUnpk .x) ∧ decodeCmd 0b00111000#8 = .ok (.fieldPack .p) ∧
  decodeCmd 0b00001001#8 = .ok .recLd ∧ decodeCmd 0b00001010#8 = .ok .recSt

/-- 30_encoding.md R61: the field descriptors' low bit, width, high bit and masks. -/
def Obligations.FieldDescriptorTable : Prop :=
  (∀ f : Field, f.mask = f.ones <<< f.lo) ∧
  (Field.lo .dt = 0 ∧ Field.width .dt = 32 ∧ Field.lo .dt + Field.width .dt - 1 = 31 ∧
    Field.ones .dt = 0xFFFFFFFF ∧ Field.mask .dt = 0x00000000FFFFFFFF ∧ selectorOfField .dt = 0) ∧
  (Field.lo .x = 32 ∧ Field.width .x = 16 ∧ Field.lo .x + Field.width .x - 1 = 47 ∧
    Field.ones .x = 0xFFFF ∧ Field.mask .x = 0x0000FFFF00000000 ∧ selectorOfField .x = 1) ∧
  (Field.lo .y = 48 ∧ Field.width .y = 15 ∧ Field.lo .y + Field.width .y - 1 = 62 ∧
    Field.ones .y = 0x7FFF ∧ Field.mask .y = 0x7FFF000000000000 ∧ selectorOfField .y = 2) ∧
  (Field.lo .p = 63 ∧ Field.width .p = 1 ∧ Field.lo .p + Field.width .p - 1 = 63 ∧
    Field.ones .p = 0x1 ∧ Field.mask .p = 0x8000000000000000 ∧ selectorOfField .p = 3)

/-- 30_encoding.md R62: the masks are pairwise disjoint, their OR is all ones, and every bit is in exactly one field. -/
def Obligations.FieldsPartitionTheWord : Prop :=
  (∀ f g : Field, f ≠ g → f.mask &&& g.mask = 0) ∧
  (Field.mask .dt ||| Field.mask .x ||| Field.mask .y ||| Field.mask .p = 0xFFFFFFFFFFFFFFFF) ∧
  (∀ n : Nat, n < 64 → ∃ f : Field, f.mask.getLsbD n = true ∧ ∀ g : Field, g.mask.getLsbD n = true → g = f)

/-- 30_encoding.md R60: a packed word is p(1) ++ y(15) ++ x(16) ++ dt(32). -/
def Obligations.PackedWordLayout : Prop :=
  ∀ w : Word, ∃ (p : BitVec 1) (y : BitVec 15) (x : BitVec 16) (dt : BitVec 32),
    w = p ++ y ++ x ++ dt ∧ unpack w .p = p ∧ unpack w .y = y ∧ unpack w .x = x ∧ unpack w .dt = dt

/-! ### Bit-field primitives -/

/-- 40_bit_field.md R80: the value of the field, by shift and mask, and no bit outside the field is read. -/
def Obligations.UnpackReadsTheField : Prop :=
  ∀ (w : Word) (f : Field),
    (unpack w f).setWidth 64 = (w >>> f.lo) &&& f.ones ∧
    (unpack w f).toNat = w.toNat / 2 ^ f.lo % 2 ^ f.width ∧
    ∀ w' : Word, (∀ n, f.lo ≤ n → n < f.lo + f.width → w'.getLsbD n = w.getLsbD n) → unpack w' f = unpack w f

/-- 40_bit_field.md R81: the field holds the low bits of v, of any width, and every other bit is unchanged. -/
def Obligations.PackReplacesTheField : Prop :=
  ∀ (k : Nat) (w : Word) (f : Field) (v : BitVec k) (n : Nat), n < 64 →
    (pack w f v).getLsbD n =
      if f.lo ≤ n ∧ n < f.lo + f.width then v.getLsbD (n - f.lo) else w.getLsbD n

/-- 40_bit_field.md R84: the five laws of pack and unpack. -/
def Obligations.PackUnpackLaws : Prop :=
  ∀ (k l : Nat) (w : Word) (f g : Field) (a : BitVec k) (b : BitVec l), f ≠ g →
    unpack (pack w f a) f = a.setWidth f.width ∧
    unpack (pack w f a) g = unpack w g ∧
    pack w f (unpack w f) = w ∧
    pack (pack w f a) f b = pack w f b ∧
    pack (pack w f a) g b = pack (pack w g b) f a

/-- 40_bit_field.md R82: FIELD.UNPK.F, its four bytes, its result and its frame (`inp`: log 5). -/
def Obligations.FieldUnpkResult : Prop :=
  (decodeCmd 0x07 = .ok (.fieldUnpk .dt) ∧ decodeCmd 0x17 = .ok (.fieldUnpk .x) ∧
    decodeCmd 0x27 = .ok (.fieldUnpk .y) ∧ decodeCmd 0x37 = .ok (.fieldUnpk .p)) ∧
  ∀ (s : State) (i : InPorts) (f : Field), s.inp = some i →
    ∃ v : Word, v.toNat = i.w.toNat / 2 ^ f.lo % 2 ^ f.width ∧ v.toNat < 2 ^ f.width ∧
      exec (.fieldUnpk f) s =
        .next { s with inp := none, index := s.index + 1, out := { fault := some 0, vOut := some v } }

/-- 40_bit_field.md R83: FIELD.PACK.F, its four bytes, its result and its frame (`inp`: log 5). -/
def Obligations.FieldPackResult : Prop :=
  (decodeCmd 0x08 = .ok (.fieldPack .dt) ∧ decodeCmd 0x18 = .ok (.fieldPack .x) ∧
    decodeCmd 0x28 = .ok (.fieldPack .y) ∧ decodeCmd 0x38 = .ok (.fieldPack .p)) ∧
  ∀ (s : State) (i : InPorts) (f : Field), s.inp = some i →
    ∃ r : Word,
      (∀ n, n < 64 → r.getLsbD n =
        if f.lo ≤ n ∧ n < f.lo + f.width then i.v.getLsbD (n - f.lo) else i.w.getLsbD n) ∧
      exec (.fieldPack f) s =
        .next { s with inp := none, index := s.index + 1, out := { fault := some 0, wOut := some r } }

/-! ### Mono codec -/

/-- 41_mono_codec.md R90: the absolute time, modulo 2^64. -/
def Obligations.AbsTimeIsModularSum : Prop :=
  ∀ w tb : Word, absTime w tb = tb + (w &&& 0xFFFFFFFF) ∧
    (absTime w tb).toNat = (tb.toNat + w.toNat % 2 ^ 32) % 2 ^ 64

/-- 41_mono_codec.md R91: MONO.ENC, its byte, its word in both forms the rule gives, and its frame (`inp`: log 5). -/
def Obligations.MonoEncResult : Prop :=
  decodeCmd 0x00 = .ok .monoEnc ∧
  ∀ (s : State) (i : InPorts), s.inp = some i →
    ∃ r : Word,
      r = i.p ++ i.y.extractLsb' 0 15 ++ i.x.extractLsb' 0 16 ++ i.dt ∧
      r = (i.p.setWidth 64 <<< 63) ||| ((i.y &&& 0x7FFF).setWidth 64 <<< 48)
            ||| ((i.x &&& 0xFFFF).setWidth 64 <<< 32) ||| i.dt.setWidth 64 ∧
      exec .monoEnc s =
        .next { s with inp := none, index := s.index + 1, out := { fault := some 0, wOut := some r } }

/-- 41_mono_codec.md R92: MONO.DXYP, its byte, its results w[47:32], w[62:48], w[63], and its frame (`inp`: log 5). -/
def Obligations.MonoDxypResult : Prop :=
  decodeCmd 0x01 = .ok .monoDxyp ∧
  ∀ (s : State) (i : InPorts), s.inp = some i →
    exec .monoDxyp s = .next { s with
      inp := none, index := s.index + 1,
      out := { fault := some 0, xOut := some (i.w.extractLsb' 32 16), yOut := some (i.w.extractLsb' 48 15),
               pOut := some (i.w.extractLsb' 63 1) } }

/-- 41_mono_codec.md R93: MONO.DTXYP, its byte, its results and its frame (`inp`: log 5). -/
def Obligations.MonoDtxypResult : Prop :=
  decodeCmd 0x02 = .ok .monoDtxyp ∧
  ∀ (s : State) (i : InPorts), s.inp = some i →
    exec .monoDtxyp s = .next { s with
      inp := none, index := s.index + 1,
      out := { fault := some 0, t := some (i.tb + (i.w &&& 0xFFFFFFFF)),
               xOut := some (i.w.extractLsb' 32 16), yOut := some (i.w.extractLsb' 48 15),
               pOut := some (i.w.extractLsb' 63 1) } }

/-- 41_mono_codec.md R94: MONO.DT, its byte, its result and its frame (`inp`: log 5). -/
def Obligations.MonoDtResult : Prop :=
  decodeCmd 0x03 = .ok .monoDt ∧
  ∀ (s : State) (i : InPorts), s.inp = some i →
    exec .monoDt s = .next { s with
      inp := none, index := s.index + 1,
      out := { fault := some 0, t := some (i.tb + (i.w &&& 0xFFFFFFFF)) } }

/-- 41_mono_codec.md R95, laws 1 and 2: a word made by MONO.ENC decodes, by MONO.DTXYP, to the truncated coordinates, the
polarity and the modular time. -/
def Obligations.MonoRoundTrip : Prop :=
  ∀ (s : State) (i j : InPorts), s.inp = some i →
    ∃ (t : State) (w : Word), exec .monoEnc s = .next t ∧ t.out.wOut = some w ∧
      (j.w = w → ∃ u : State, exec .monoDtxyp { t with inp := some j } = .next u ∧
        u.out = { fault := some 0, t := some (j.tb + i.dt.setWidth 64), xOut := some (i.x.setWidth 16),
                  yOut := some (i.y.setWidth 15), pOut := some i.p })

/-- 41_mono_codec.md R95, laws 3 and 4: each encoded input changes its own decoded output only, and every word is the
encoding of its own decoded fields. -/
def Obligations.MonoIsolationAndSurjection : Prop :=
  (∀ (p p' : BitVec 1) (x x' y y' dt dt' : BitVec 32),
    (monoWord p x y dt).extractLsb' 63 1 = (monoWord p x' y' dt').extractLsb' 63 1 ∧
    (monoWord p x y dt).extractLsb' 32 16 = (monoWord p' x y' dt').extractLsb' 32 16 ∧
    (monoWord p x y dt).extractLsb' 48 15 = (monoWord p' x' y dt').extractLsb' 48 15 ∧
    (monoWord p x y dt).extractLsb' 0 32 = (monoWord p' x' y' dt).extractLsb' 0 32) ∧
  (∀ (s : State) (i j : InPorts), s.inp = some i →
    ∃ (t : State) (x : BitVec 16) (y : BitVec 15) (p : BitVec 1), exec .monoDxyp s = .next t ∧
      t.out.xOut = some x ∧ t.out.yOut = some y ∧ t.out.pOut = some p ∧
      (j.p = p → j.x = x.setWidth 32 → j.y = y.setWidth 32 → j.dt = i.w.extractLsb' 0 32 →
        ∃ u : State, exec .monoEnc { t with inp := some j } = .next u ∧ u.out.wOut = some i.w))

/-! ### Trigger codec -/

/-- 42_trigger_codec.md R100: TRIG.ENC, its byte, its word with bits 62..32 zero, and its frame (`inp`: log 5). -/
def Obligations.TrigEncResult : Prop :=
  decodeCmd 0x04 = .ok .trigEnc ∧
  ∀ (s : State) (i : InPorts), s.inp = some i →
    ∃ r : Word,
      r = i.p ++ (0 : BitVec 31) ++ i.dt ∧
      r = (i.p.setWidth 64 <<< 63) ||| i.dt.setWidth 64 ∧
      exec .trigEnc s =
        .next { s with inp := none, index := s.index + 1, out := { fault := some 0, wOut := some r } }

/-- 42_trigger_codec.md R101: TRIG.DP, its byte, its result bit 63 alone, and its frame (`inp`: log 5). -/
def Obligations.TrigDpResult : Prop :=
  decodeCmd 0x05 = .ok .trigDp ∧
  ∀ (s : State) (i : InPorts), s.inp = some i →
    exec .trigDp s = .next { s with
      inp := none, index := s.index + 1, out := { fault := some 0, pOut := some (BitVec.ofBool i.w.msb) } }

/-- 42_trigger_codec.md R102: TRIG.DTP, its byte, its results and its frame (`inp`: log 5). -/
def Obligations.TrigDtpResult : Prop :=
  decodeCmd 0x06 = .ok .trigDtp ∧
  ∀ (s : State) (i : InPorts), s.inp = some i →
    exec .trigDtp s = .next { s with
      inp := none, index := s.index + 1,
      out := { fault := some 0, t := some (i.tb + (i.w &&& 0xFFFFFFFF)), pOut := some (BitVec.ofBool i.w.msb) } }

/-- 42_trigger_codec.md R103: TRIG.ENC is MONO.ENC with x and y 0; the trigger decoders depend on bit 63 and bits 31..0
only, so a MONO.ENC word with any x and y decodes as a trigger event with its p and dt; the trigger round trip; and mono
decoders find x = 0 and y = 0 in a TRIG.ENC word. -/
def Obligations.TriggerMonoInterwork : Prop :=
  (∀ (s : State) (i : InPorts), s.inp = some i → i.x = 0 → i.y = 0 →
    ∃ t : State, exec .trigEnc s = .next t ∧ exec .monoEnc s = .next t) ∧
  (∀ (s : State) (i j : InPorts), i.w.msb = j.w.msb → i.w.extractLsb' 0 32 = j.w.extractLsb' 0 32 → i.tb = j.tb →
    exec .trigDp { s with inp := some i } = exec .trigDp { s with inp := some j } ∧
    exec .trigDtp { s with inp := some i } = exec .trigDtp { s with inp := some j }) ∧
  (∀ (s : State) (i j : InPorts), s.inp = some i →
    ∃ (t : State) (w : Word), exec .monoEnc s = .next t ∧ t.out.wOut = some w ∧
      (j.w = w → ∃ u v : State,
        exec .trigDp { t with inp := some j } = .next u ∧ u.out = { fault := some 0, pOut := some i.p } ∧
        exec .trigDtp { t with inp := some j } = .next v ∧
        v.out = { fault := some 0, t := some (j.tb + i.dt.setWidth 64), pOut := some i.p })) ∧
  (∀ (s : State) (i j : InPorts), s.inp = some i →
    ∃ (t : State) (w : Word), exec .trigEnc s = .next t ∧ t.out.wOut = some w ∧
      (j.w = w → ∃ u v : State,
        exec .trigDtp { t with inp := some j } = .next u ∧
        u.out = { fault := some 0, t := some (j.tb + i.dt.setWidth 64), pOut := some i.p } ∧
        exec .monoDtxyp { t with inp := some j } = .next v ∧ v.out.xOut = some 0 ∧ v.out.yOut = some 0 ∧
        ∃ d : State, exec .monoDxyp { t with inp := some j } = .next d ∧ d.out.xOut = some 0 ∧ d.out.yOut = some 0))

/-! ### Record memory -/

/-- 20_memory.md R42: byte k of the word read is M[a+k], and the word is the sum of the bytes at their weights. -/
def Obligations.RecordReadIsLittleEndian : Prop :=
  ∀ (m : Memory) (a : Nat),
    (∀ k, k < 8 → (m.readRecord a).extractLsb' (8 * k) 8 = m.read (a + k)) ∧
    (m.readRecord a).toNat =
      (m.read a).toNat + (m.read (a + 1)).toNat * 0x100 + (m.read (a + 2)).toNat * 0x10000 +
        (m.read (a + 3)).toNat * 0x1000000 + (m.read (a + 4)).toNat * 0x100000000 +
        (m.read (a + 5)).toNat * 0x10000000000 + (m.read (a + 6)).toNat * 0x1000000000000 +
        (m.read (a + 7)).toNat * 0x100000000000000

/-- 20_memory.md R43: byte a+k takes bits 8k+7..8k of the word, no other byte changes, and the rule's example. -/
def Obligations.RecordWriteIsLittleEndian : Prop :=
  (∀ (m : Memory) (a : Nat) (w : Word),
    (∀ k, k < 8 → (m.writeRecord a w).read (a + k) = w.extractLsb' (8 * k) 8) ∧
    (∀ b, b < a ∨ a + 8 ≤ b → (m.writeRecord a w).read b = m.read b)) ∧
  (∀ (m : Memory) (a : Nat),
    let n := m.writeRecord a 0x8032006400003039
    n.read a = 0x39 ∧ n.read (a + 1) = 0x30 ∧ n.read (a + 2) = 0x00 ∧ n.read (a + 3) = 0x00 ∧
    n.read (a + 4) = 0x64 ∧ n.read (a + 5) = 0x00 ∧ n.read (a + 6) = 0x32 ∧ n.read (a + 7) = 0x80)

/-- 20_memory.md R44, the byte placement in a stored mono event (R91, R43): where polarity, y, x and dt lie. -/
def Obligations.StoredEventBytePlacement : Prop :=
  ∀ (m : Memory) (a : Nat) (p : BitVec 1) (x y dt : BitVec 32),
    let n := m.writeRecord a (monoWord p x y dt)
    n.read (a + 7) = p ++ y.extractLsb' 8 7 ∧ n.read (a + 6) = y.extractLsb' 0 8 ∧
    n.read (a + 5) = x.extractLsb' 8 8 ∧ n.read (a + 4) = x.extractLsb' 0 8 ∧
    ∀ k, k < 4 → n.read (a + k) = dt.extractLsb' (8 * k) 8

/-- 43_record_access.md R110: REC.LD, its byte; in bounds, the little-endian word and nothing else changes; out of bounds,
fault 2 with the address recorded and no other effect (`inp`: log 5). -/
def Obligations.RecLdResult : Prop :=
  decodeCmd 0x09 = .ok .recLd ∧
  ∀ (s : State) (i : InPorts), s.inp = some i →
    (i.addr.toNat + 8 ≤ s.bufLen → ∃ r : Word,
      (∀ k, k < 8 → r.extractLsb' (8 * k) 8 = s.mem.read (i.addr.toNat + k)) ∧
      exec .recLd s =
        .next { s with inp := none, index := s.index + 1, out := { fault := some 0, wOut := some r } }) ∧
    (s.bufLen < i.addr.toNat + 8 →
      exec .recLd s = .next { s with
        inp := none, index := s.index + 1, out := { fault := some 2 },
        faults := s.faults ++ [⟨s.index, .recordOutOfBounds i.addr⟩] })

/-- 43_record_access.md R111: REC.ST, its byte; in bounds, exactly the bytes a..a+7 take the word and nothing else changes;
out of bounds, fault 2 with the address recorded and no byte written (`inp`: log 5). -/
def Obligations.RecStResult : Prop :=
  decodeCmd 0x0A = .ok .recSt ∧
  ∀ (s : State) (i : InPorts), s.inp = some i →
    (i.addr.toNat + 8 ≤ s.bufLen → ∃ m : Memory,
      (∀ k, k < 8 → m.read (i.addr.toNat + k) = i.w.extractLsb' (8 * k) 8) ∧
      (∀ b, b < i.addr.toNat ∨ i.addr.toNat + 8 ≤ b → m.read b = s.mem.read b) ∧
      exec .recSt s =
        .next { s with mem := m, inp := none, index := s.index + 1, out := { fault := some 0 } }) ∧
    (s.bufLen < i.addr.toNat + 8 →
      exec .recSt s = .next { s with
        inp := none, index := s.index + 1, out := { fault := some 2 },
        faults := s.faults ++ [⟨s.index, .recordOutOfBounds i.addr⟩] })

/-- 20_memory.md R46 (and R45): REC.LD and REC.ST complete at every address, of any alignment, exactly when a + 8 ≤ BUF_LEN as
naturals; any other address raises RecordOutOfBounds, and then no byte changes. -/
def Obligations.BoundsDecideEveryRecordAccess : Prop :=
  ∀ (s : State) (i : InPorts) (c : Instr), (c = .recLd ∨ c = .recSt) → s.inp = some i →
    ∃ t : State, exec c s = .next t ∧
      (t.out.fault = some 0 ↔ i.addr.toNat + 8 ≤ s.bufLen) ∧
      (t.out.fault = some 2 ↔ ¬ i.addr.toNat + 8 ≤ s.bufLen) ∧
      (t.out.fault = some 2 → t.mem = s.mem ∧ t.out = { fault := some 2 } ∧
        t.faults = s.faults ++ [⟨s.index, .recordOutOfBounds i.addr⟩])

/-- 43_record_access.md R112: a later load of bytes nothing else wrote returns what was stored; a store eight or more bytes away does not change a load; storing
the loaded word leaves M unchanged; a load is the sum of its bytes. Memory in canonical form is a premise of the third law
only, where M is compared as data. -/
def Obligations.RecordAccessLaws : Prop :=
  ∀ (s : State) (i j : InPorts), s.inp = some i → i.addr.toNat + 8 ≤ s.bufLen → j.addr.toNat + 8 ≤ s.bufLen →
    (∃ t : State, exec .recSt s = .next t ∧
      ∀ (u : State) (q : InPorts), u.inp = some q → q.addr = i.addr → u.bufLen = t.bufLen →
        (∀ k, k < 8 → u.mem.read (i.addr.toNat + k) = t.mem.read (i.addr.toNat + k)) →
        ∃ v : State, exec .recLd u = .next v ∧ v.out.wOut = some i.w) ∧
    (i.addr.toNat + 8 ≤ j.addr.toNat ∨ j.addr.toNat + 8 ≤ i.addr.toNat →
      ∃ t u v : State, exec .recSt s = .next t ∧ exec .recLd { t with inp := some j } = .next u ∧
        exec .recLd { s with inp := some j } = .next v ∧ u.out = v.out ∧ u.out.fault = some 0) ∧
    (∃ (t : State) (w : Word), exec .recLd s = .next t ∧ t.out.wOut = some w ∧
      (let M := fun k => (s.mem.read (i.addr.toNat + k)).toNat
       w.toNat = M 0 + M 1 * 0x100 + M 2 * 0x10000 + M 3 * 0x1000000 + M 4 * 0x100000000 + M 5 * 0x10000000000 +
         M 6 * 0x1000000000000 + M 7 * 0x100000000000000) ∧
      (s.mem.wf → j.addr = i.addr → j.w = w →
        ∃ u : State, exec .recSt { t with inp := some j } = .next u ∧ u.mem = s.mem))

/-- 20_memory.md R51: in two transactions one after the other, a store and then a load of the same 8 bytes, the host value
bound by the load is the word stored, and no fault is logged. -/
def Obligations.StoreThenLoadInOneRun : Prop :=
  ∀ (s : State) (a w : Word) (n : Nat) (rest : List HostMove), a.toNat + 8 ≤ s.bufLen → n ∉ s.boundNames →
    s.moves = .transact ⟨0x0A, [(.addr, .lit a), (.w, .lit w)], []⟩ ::
      .transact ⟨0x09, [(.addr, .lit a)], [(n, .wOut)]⟩ :: rest →
    ∃ t : State, core.run 2 s = .next t ∧ t.vals = s.vals ++ [⟨n, some w⟩] ∧ t.faults = s.faults ∧
      t.index = s.index + 2 ∧ t.moves = rest ∧
      ∀ k, k < 8 → t.mem.read (a.toNat + k) = w.extractLsb' (8 * k) 8

/-- 20_memory.md R47: a stream of words laid out from a base at a stride of 8 holds its i-th record at base + 8i. -/
def Obligations.StreamRecordsLieAtStrideEight : Prop :=
  ∀ (before after : List Byte) (words : List Word) (moves : List HostMove) (k : Nat) (h : k < words.length),
    let s := State.launch (before ++ words.flatMap wordBytes ++ after) moves
    s.mem.readRecord (before.length + 8 * k) = words[k] ∧ before.length + 8 * k + 8 ≤ s.bufLen

/-- 20_memory.md R52: while another agent writes a word over the 8 bytes of a load, any of its byte writes may come before
the load and the others after it: whichever they are, the load returns for each byte the new byte where its write came
before, and the old byte where it did not. The byte writes stand in the host's list (the model's form, log 9). -/
def Obligations.TornLoadMixesBytes : Prop :=
  ∀ (s : State) (a w : Word) (early : List Nat) (n : Nat) (rest : List HostMove),
    a.toNat + 8 ≤ s.bufLen → (∀ k ∈ early, k < 8) → n ∉ s.boundNames →
    s.moves = early.map (fun k => HostMove.writeByte (a.toNat + k) (wordByte w k)) ++
      .transact ⟨0x09, [(.addr, .lit a)], [(n, .wOut)]⟩ :: rest →
    ∃ (t : State) (r : Word), core.run (early.length + 1) s = .next t ∧ t.vals = s.vals ++ [⟨n, some r⟩] ∧
      ∀ k, k < 8 → r.extractLsb' (8 * k) 8 =
        if k ∈ early then w.extractLsb' (8 * k) 8 else s.mem.read (a.toNat + k)

/-- 10_state.md R28, 70_reset_and_hazards.md R144: a byte the host writes between transactions changes that byte of record
memory and nothing else that lasts. An address outside the buffer is no byte of record memory (log 10). -/
def Obligations.HostByteWriteChangesOneByte : Prop :=
  ∀ (s : State) (a : Nat) (v : Byte) (rest : List HostMove), s.moves = .writeByte a v :: rest →
    ∃ t : State, step s = .next t ∧
      t = { s with mem := t.mem, inp := none, out := {}, moves := rest } ∧
      ∀ b, t.mem.read b = if b = a ∧ a < s.bufLen then v else s.mem.read b

/-! ### Faults -/

/-- 60_exceptions.md R120: the codec commands never fault, whatever their input ports hold. -/
def Obligations.CodecCommandsNeverFault : Prop :=
  ∀ (s : State) (p : InPorts) (i : Instr), i ≠ .recLd → i ≠ .recSt → s.inp = some p →
    ∃ t : State, exec i s = .next t ∧ t.out.fault = some 0 ∧ t.faults = s.faults

/-- 60_exceptions.md R121, 70_reset_and_hazards.md R148: every transaction the host presents completes, with code 0 and
the log as it was, or with code 1 exactly for an illegal byte, or with code 2 exactly for a record access out of bounds,
and then one entry records this transaction's index, the code and the byte or the address. -/
def Obligations.EveryTransactionCompletesWithItsCode : Prop :=
  ∀ (s : State) (l : Line) (rest : List HostMove) (p : InPorts),
    s.moves = .transact l :: rest → s.present l = .ok p →
    ∃ t : State, step s = .next t ∧ t.index = s.index + 1 ∧ t.moves = rest ∧
      match decodeCmd p.cmd with
      | .error _ =>
        t.out.fault = some 1 ∧ ∃ e : FaultEntry, t.faults = s.faults ++ [e] ∧
          e.index = s.index ∧ e.cause.code = 1 ∧ e.cause.info = p.cmd.setWidth 64
      | .ok i =>
        if (i = .recLd ∨ i = .recSt) ∧ s.bufLen < p.addr.toNat + 8 then
          t.out.fault = some 2 ∧ ∃ e : FaultEntry, t.faults = s.faults ++ [e] ∧
            e.index = s.index ∧ e.cause.code = 2 ∧ e.cause.info = p.addr
        else t.out.fault = some 0 ∧ t.faults = s.faults

/-- 60_exceptions.md R122: an illegal command byte, on any transaction, faults with code 1, records the byte, drives no
other output and touches no memory (`inp`: log 5; the host's list, index and names move on as after every transaction). -/
def Obligations.IllegalCommandFaults : Prop :=
  ∀ (s : State) (l : Line) (rest : List HostMove) (p : InPorts),
    s.moves = .transact l :: rest → s.present l = .ok p →
    (l.cmd.toNat / 64 ≠ 0 ∨ 0xB ≤ l.cmd.toNat % 16 ∨
      (l.cmd.toNat / 16 % 4 ≠ 0 ∧ l.cmd.toNat % 16 ≠ 7 ∧ l.cmd.toNat % 16 ≠ 8)) →
    ∃ bound : List HostVal, bound.map HostVal.name = l.results.map Prod.fst ∧
      step s = .next { s with
        inp := none, index := s.index + 1, moves := rest, out := { fault := some 1 },
        faults := s.faults ++ [⟨s.index, .illegalCommand l.cmd⟩], vals := s.vals ++ bound }

/-- 60_exceptions.md R123: a REC.LD or REC.ST line whose address is out of bounds faults with code 2, records the address,
drives no other output, and reads and writes no byte (`inp`: log 5; the host's list, index and names move on as after every
transaction). -/
def Obligations.RecordOutOfBoundsFaults : Prop :=
  ∀ (s : State) (l : Line) (rest : List HostMove) (p : InPorts),
    s.moves = .transact l :: rest → s.present l = .ok p → (l.cmd = 0x09 ∨ l.cmd = 0x0A) →
    s.bufLen < p.addr.toNat + 8 →
    ∃ bound : List HostVal, bound.map HostVal.name = l.results.map Prod.fst ∧
      step s = .next { s with
        inp := none, index := s.index + 1, moves := rest, out := { fault := some 2 },
        faults := s.faults ++ [⟨s.index, .recordOutOfBounds p.addr⟩], vals := s.vals ++ bound }

/-- 60_exceptions.md R125: a transaction whose `fault` output is not 0 changes that output and the log, by one entry, and
nothing else (`inp`: log 5; the host's list, index and names move on as after every transaction). -/
def Obligations.FaultsArePrecise : Prop :=
  ∀ (s t : State) (l : Line) (rest : List HostMove),
    s.moves = .transact l :: rest → step s = .next t → t.out.fault ≠ some 0 →
    ∃ (e : FaultEntry) (bound : List HostVal), e.index = s.index ∧ bound.map HostVal.name = l.results.map Prod.fst ∧
      t = { s with
        inp := none, index := s.index + 1, moves := rest, out := { fault := some e.cause.code },
        faults := s.faults ++ [e], vals := s.vals ++ bound }

/-- 30_encoding.md R72, 10_state.md R23: after a transaction each name of the line is bound, in order, to what its output
port holds; after a fault the name of a port other than `fault` has no value (the model's form, log 6). -/
def Obligations.ResultsAreBoundToTheOutputs : Prop :=
  ∀ (s t : State) (l : Line) (rest : List HostMove), s.moves = .transact l :: rest → step s = .next t →
    t.vals = s.vals ++ l.results.map (fun r => ⟨r.1, t.out.read r.2⟩) ∧
    (t.out.fault ≠ some 0 → ∀ n q, (n, q) ∈ l.results → q ≠ .fault → ⟨n, none⟩ ∈ t.vals)

/-- 60_exceptions.md R129: a command does the same to memory and outputs whatever faults were logged before it. -/
def Obligations.FaultLogDoesNotAffectCommands : Prop :=
  ∀ (s t : State) (i : Instr) (log : List FaultEntry), exec i s = .next t →
    ∃ u : State, exec i { s with faults := log } = .next u ∧ u.out = t.out ∧ u.mem = t.mem ∧
      ∃ more, t.faults = s.faults ++ more ∧ u.faults = log ++ more

/-- 60_exceptions.md R134, 10_state.md R30 and R25, over runs of any length from any state: the fault log is never cleared,
only appended to, so that a run once faulted is never clean again; the index never goes back; BUF_LEN stays. -/
def Obligations.FaultLogIsNeverCleared : Prop :=
  ∀ (k : Nat) (s t : State), core.run k s = .next t →
    (∃ more : List FaultEntry, t.faults = s.faults ++ more ∧ more.length ≤ t.index - s.index) ∧
    (¬ s.Clean → ¬ t.Clean) ∧ s.index ≤ t.index ∧ t.index ≤ s.index + k ∧ t.bufLen = s.bufLen

/-! ### Ports, frames and state -/

/-- 10_state.md R21 and R29, R20: what a command drives, and what a store writes, depends only on the ports its rule lists,
on BUF_LEN for a record access, and on the eight bytes read for REC.LD; on nothing else of the state. -/
def Obligations.CommandsReadOnlyTheirInputs : Prop :=
  ∀ (c : Instr) (s s' : State) (i j : InPorts), s.inp = some i → s'.inp = some j →
    (match c with
      | .monoEnc => i.p = j.p ∧ i.x.extractLsb' 0 16 = j.x.extractLsb' 0 16 ∧
          i.y.extractLsb' 0 15 = j.y.extractLsb' 0 15 ∧ i.dt = j.dt
      | .monoDxyp => i.w = j.w
      | .monoDtxyp => i.w = j.w ∧ i.tb = j.tb
      | .monoDt => i.w = j.w ∧ i.tb = j.tb
      | .trigEnc => i.p = j.p ∧ i.dt = j.dt
      | .trigDp => i.w = j.w
      | .trigDtp => i.w = j.w ∧ i.tb = j.tb
      | .fieldUnpk _ => i.w = j.w
      | .fieldPack f => i.w = j.w ∧ i.v.setWidth f.width = j.v.setWidth f.width
      | .recLd => i.addr = j.addr ∧ s.bufLen = s'.bufLen ∧
          ∀ k, k < 8 → s.mem.read (i.addr.toNat + k) = s'.mem.read (i.addr.toNat + k)
      | .recSt => i.addr = j.addr ∧ i.w = j.w ∧ s.bufLen = s'.bufLen) →
    ∃ t t' : State, exec c s = .next t ∧ exec c s' = .next t' ∧ t.out = t'.out ∧
      ∀ a, t.mem.read a = t'.mem.read a ∨ (t.mem.read a = s.mem.read a ∧ t'.mem.read a = s'.mem.read a)

/-- 10_state.md R22, R23: a command that completes drives `fault` and exactly the ports R22 lists for it; after a fault no
port but `fault` holds a value. -/
def Obligations.OutputsDrivenAreExactlyTheListed : Prop :=
  ∀ (c : Instr) (s t : State), exec c s = .next t →
    (∃ code, t.out.fault = some code) ∧
    (t.out.fault ≠ some 0 → ∀ q, q ≠ .fault → t.out.read q = none) ∧
    (t.out.fault = some 0 →
      (t.out.wOut ≠ none ↔ c = .monoEnc ∨ c = .trigEnc ∨ (∃ f, c = .fieldPack f) ∨ c = .recLd) ∧
      (t.out.t ≠ none ↔ c = .monoDtxyp ∨ c = .monoDt ∨ c = .trigDtp) ∧
      (t.out.xOut ≠ none ↔ c = .monoDxyp ∨ c = .monoDtxyp) ∧
      (t.out.yOut ≠ none ↔ c = .monoDxyp ∨ c = .monoDtxyp) ∧
      (t.out.pOut ≠ none ↔ c = .monoDxyp ∨ c = .monoDtxyp ∨ c = .trigDp ∨ c = .trigDtp) ∧
      (t.out.vOut ≠ none ↔ ∃ f, c = .fieldUnpk f))

/-- 10_state.md R25, R27, R30, 20_memory.md R55: the frame of every command. The index advances by one; BUF_LEN, the host's
values and the commands still to come are unchanged; every byte of M is unchanged but for REC.ST, where every byte outside
the eight at its address is. -/
def Obligations.CommandFrame : Prop :=
  ∀ (c : Instr) (s t : State), exec c s = .next t →
    t.index = s.index + 1 ∧ t.bufLen = s.bufLen ∧ t.vals = s.vals ∧ t.moves = s.moves ∧ t.inp = none ∧
    (c ≠ .recSt → t.mem = s.mem ∧ ∀ a, t.mem.read a = s.mem.read a) ∧
    (∀ (i : InPorts) (a : Nat), s.inp = some i → c = .recSt →
      a < i.addr.toNat ∨ i.addr.toNat + 8 ≤ a → t.mem.read a = s.mem.read a)

/-- 30_encoding.md R72, 10_state.md R21: an assembled line presents its command's byte, and on each port the command reads
the value of the operand that stands at its place, where that value fits the port. -/
def Obligations.AssembledLineDrivesItsPorts : Prop :=
  ∀ (s : State) (l : AsmLine) (p : InPorts), l.wf = true → s.present l.assemble = .ok p →
    decodeCmd p.cmd = .ok l.instr ∧
    ∀ (k : Nat) (q : InPort) (o : Operand) (v : Word), l.instr.reads[k]? = some q → l.operands[k]? = some o →
      Sys2Proof.Machine.Operand.value s.vals o = .ok v → v.toNat < 2 ^ q.width → p.read q = v

/-- 30_encoding.md R73: the expansions of the pseudo-instructions with a given name for `%_k`, and the address of a stream's
record modulo 2^64. That the name is fresh is `ExpansionTakesFreshNames`. -/
def Obligations.PseudoInstructionExpansions : Prop :=
  ∀ (n k : Nat) (base i w a p x y dt tb : Operand) (vals : List HostVal) (b e : Word),
    (Pseudo.evLd n base i).expand k = [⟨.recLd, [.record base i], [n]⟩] ∧
    (Pseudo.evSt base i w).expand k = [⟨.recSt, [.record base i, w], []⟩] ∧
    (Pseudo.monoPut a p x y dt).expand k = [⟨.monoEnc, [p, x, y, dt], [k]⟩, ⟨.recSt, [a, .val k], []⟩] ∧
    (Pseudo.trigPut a p dt).expand k = [⟨.trigEnc, [p, dt], [k]⟩, ⟨.recSt, [a, .val k], []⟩] ∧
    (Pseudo.trigEncM n p dt).expand k = [⟨.monoEnc, [p, .lit 0, .lit 0, dt], [n]⟩] ∧
    (Pseudo.trigDt n w tb).expand k = [⟨.trigDtp, [w, tb], [n, k]⟩] ∧
    (Sys2Proof.Machine.Operand.value vals base = .ok b → Sys2Proof.Machine.Operand.value vals i = .ok e →
      ∃ r : Word, Sys2Proof.Machine.Operand.value vals (.record base i) = .ok r ∧
        r.toNat = (b.toNat + 8 * e.toNat) % 2 ^ 64)

/-- 30_encoding.md R73: the expansion of a source program takes for each source line a name for `%_k` that no line of the
program uses or binds, a different one for each, and is the expansions of its lines in order. -/
def Obligations.ExpansionTakesFreshNames : Prop :=
  ∀ prog : List Stmt, ∃ fresh : List Nat,
    fresh.length = prog.length ∧ fresh.Nodup ∧
    (∀ k ∈ fresh, ∀ l : AsmLine, .line l ∈ prog → (∀ o ∈ l.operands, k ∉ o.names) ∧ k ∉ l.names) ∧
    (∀ k ∈ fresh, ∀ q : Pseudo, .pseudo q ∈ prog →
      match q with
      | .evLd n base i => k ≠ n ∧ k ∉ base.names ∧ k ∉ i.names
      | .evSt base i w => k ∉ base.names ∧ k ∉ i.names ∧ k ∉ w.names
      | .monoPut a p x y dt => k ∉ a.names ∧ k ∉ p.names ∧ k ∉ x.names ∧ k ∉ y.names ∧ k ∉ dt.names
      | .trigPut a p dt => k ∉ a.names ∧ k ∉ p.names ∧ k ∉ dt.names
      | .trigEncM n p dt => k ≠ n ∧ k ∉ p.names ∧ k ∉ dt.names
      | .trigDt n w tb => k ≠ n ∧ k ∉ w.names ∧ k ∉ tb.names) ∧
    expandProgram prog = (prog.zip fresh).flatMap fun c =>
      match c.1 with
      | .line l => [l]
      | .pseudo q => q.expand c.2

/-- 10_state.md R23, 30_encoding.md R72: a line that uses, in any operand and also inside the address of a stream's record, a
host value without a value is refused: one bound to a port that held none (R23), or one never bound (the model's own, log 6,
DEDUCED: R72 says only that a name is bound by an earlier line). Where the line binds no bound name and its first listed
operand is a name bound to no value, the refusal names it (the model's form too, log 6). -/
def Obligations.ValuelessHostValueIsRefused : Prop :=
  (∀ (s : State) (l : Line) (rest : List HostMove) (q : InPort) (o : Operand) (n : Nat),
    s.moves = .transact l :: rest → (q, o) ∈ l.args → n ∈ o.names →
    (lookupVal s.vals n = none ∨ ∃ h, lookupVal s.vals n = some h ∧ h.value = none) →
    ∃ r : Refusal, step s = .refused r) ∧
  (∀ (s : State) (l : Line) (rest : List HostMove) (args : List (InPort × Operand)) (q : InPort) (n m : Nat),
    s.moves = .transact l :: rest → reboundName s.boundNames l.results = none →
    l.args = (q, .val n) :: args → lookupVal s.vals n = some ⟨m, none⟩ →
    step s = .refused (.undrivenOutput n))

/-- 10_state.md R30, 60_exceptions.md R126: the step around a command. When the host's next transaction is presented and its
byte decodes to i, the step is exec of i in the state with the transaction issued, and then the results are bound. -/
def Obligations.StepRunsTheDecodedInstruction : Prop :=
  ∀ (s : State) (l : Line) (rest : List HostMove) (p : InPorts) (i : Instr),
    s.moves = .transact l :: rest → s.present l = .ok p → decodeCmd p.cmd = .ok i →
    p.cmd = l.cmd ∧
    step s = onNext (State.bind l.results) (exec i { s with moves := rest, inp := some p, out := {} })

/-- The instruction placed for the next step is the one that runs (the model's way to place it, log 3). -/
def Obligations.PlacedCommandRunsNext : Prop :=
  ∀ (s : State) (nbits w : Nat) (i : Instr), decodeTableWord nbits w = some i →
    ∃ p : InPorts, p.cmd = BitVec.ofNat 8 w ∧
      step (s.withFetchWord nbits w) = exec i { s with inp := some p, out := {} }

/-! ### Reset and the invariant -/

/-- 10_state.md R31: what holds after reset and at launch: no port holds a value, the log is empty, the index is 0; and
record memory is the launch argument, byte for byte (70_reset_and_hazards.md R141). -/
def Obligations.ResetAndLaunchValues : Prop :=
  (State.reset.inp = none ∧ State.reset.out = {} ∧ State.reset.faults = [] ∧ State.reset.index = 0) ∧
  ∀ (bytes : List Byte) (moves : List HostMove),
    let s := State.launch bytes moves
    s.inp = none ∧ s.out = {} ∧ s.faults = [] ∧ s.index = 0 ∧ s.moves = moves ∧ s.bufLen = bytes.length ∧
    ∀ (a : Nat) (h : a < bytes.length), s.mem.read a = bytes[a]

/-- 70_reset_and_hazards.md R140, R141: a reset between transactions leaves record memory, the log and the host's side as
they were, and no port holds a value. That the host's index stays is the model's reading (log 11). -/
def Obligations.ResetHasNoArchitecturalEffect : Prop :=
  ∀ (s : State) (rest : List HostMove), s.moves = .reset :: rest →
    step s = .next { s with moves := rest, inp := none, out := {} }

/-- With nothing left in the host's list the machine idles: only the ports lose their values (the model's choice, log 4). -/
def Obligations.EmptyHostListIdles : Prop :=
  ∀ s : State, s.moves = [] → step s = .next { s with inp := none, out := {} }

/-- The invariant holds after reset. -/
def Obligations.ResetMeetsInvariant : Prop := State.reset.Inv

/-- The invariant holds at every launch, whatever the bytes of record memory. -/
def Obligations.LaunchMeetsInvariant : Prop :=
  ∀ (bytes : List Byte) (moves : List HostMove), (State.launch bytes moves).Inv

/-- 10_state.md R28, R30, 60_exceptions.md R122, R123, R134: every step keeps the invariant: memory stays in canonical form
and inside the buffer, the log truthful and ordered, the outputs coherent, each host value bound once. -/
def Obligations.StepKeepsInvariant : Prop :=
  ∀ s t : State, s.Inv → step s = .next t → t.Inv

/-- 70_reset_and_hazards.md R148, 93_implementation_defined.md U15: no step of the machine stops with a fault; where it
does not answer a next state, the host's next line is refused, and for a name of that very line: one that an operand uses
and no line has bound, one that an operand uses and that was bound to no value (10_state.md R23), or one that the line binds
and that is bound already, before it or by it (30_encoding.md R72). That the host's line is refused for a name never bound or
bound again, and the form of each refusal, are the model's own (log 6, DEDUCED). -/
def Obligations.StepStopsOnlyForTheHostsNames : Prop :=
  ∀ s : State,
    (∃ t, step s = .next t) ∨
    ∃ (l : Line) (rest : List HostMove) (n : Nat), s.moves = .transact l :: rest ∧
      ((step s = .refused (.unboundName n) ∧ (∃ a ∈ l.args, n ∈ a.2.names) ∧ lookupVal s.vals n = none) ∨
       (step s = .refused (.undrivenOutput n) ∧ (∃ a ∈ l.args, n ∈ a.2.names) ∧
          ∃ h, lookupVal s.vals n = some h ∧ h.value = none) ∨
       (step s = .refused (.nameBoundTwice n) ∧ n ∈ l.results.map Prod.fst ∧
          (n ∈ s.boundNames ∨ 2 ≤ (l.results.map Prod.fst).count n)))

/-- In the model a line of any command byte completes exactly when every name its operands use has a value and the names it
binds are new, each bound once. That such a line completes rests on 70_reset_and_hazards.md R148. The other half, that a name
never bound, or bound again, keeps a line from completing, is the model's own form (log 6, DEDUCED): 30_encoding.md R72 says
only that names are bound by an earlier line and once, and of refusals 10_state.md R23 gives only that of a program that reads
an output holding no value. -/
def Obligations.LineCompletesExactlyWhenItsNamesAllow : Prop :=
  ∀ (s : State) (l : Line) (rest : List HostMove), s.moves = .transact l :: rest →
    ((∃ t, step s = .next t) ↔
      (∀ a ∈ l.args, ∀ n ∈ a.2.names, ∃ h, lookupVal s.vals n = some h ∧ h.value ≠ none) ∧
      (l.results.map Prod.fst).Nodup ∧ ∀ n ∈ l.results.map Prod.fst, n ∉ s.boundNames)
end

