-- ==== Sys2Proof/Laws/BitField.lean ====
section
/-! SUPPORT. The bits of the field descriptors' masks and of an unpacked field. -/

namespace Sys2Proof.Machine

/-- Every field lies inside the word (30_encoding.md R61). -/
theorem Field.lo_add_width_le (f : Field) : f.lo + f.width ≤ 64 := by cases f <;> decide

/-- Two different fields share no bit position (R62). -/
theorem Field.apart {f g : Field} (h : f ≠ g) : f.lo + f.width ≤ g.lo ∨ g.lo + g.width ≤ f.lo := by
  cases f <;> cases g <;> first | exact absurd rfl h | decide

/-- The in-word mask is set exactly at the field's bits (R61). -/
theorem Field.getLsbD_mask (f : Field) (i : Nat) :
    f.mask.getLsbD i = decide (f.lo ≤ i ∧ i < f.lo + f.width) := by
  by_cases h : i < 64
  · cases f <;> revert i <;> decide
  · have hw := Field.lo_add_width_le f
    rw [BitVec.getLsbD_of_ge _ _ (by omega), eq_comm, decide_eq_false_iff_not]
    omega

/-- Bit `i` of an unpacked field is bit `lo + i` of the word (40_bit_field.md R80). -/
@[simp] theorem getLsbD_unpack (w : Word) (f : Field) (i : Nat) :
    (unpack w f).getLsbD i = (decide (i < f.width) && w.getLsbD (f.lo + i)) := by
  simp [unpack]

end Sys2Proof.Machine
end

