-- ==== Sys2Proof/Laws/State.lean ====
section
/-! SUPPORT. What each named update of the state does to each field. -/

namespace Sys2Proof.Machine

@[simp] theorem State.silent_bufLen (s : State) : s.silent.bufLen = s.bufLen := rfl
@[simp] theorem State.silent_mem (s : State) : s.silent.mem = s.mem := rfl
@[simp] theorem State.silent_faults (s : State) : s.silent.faults = s.faults := rfl
@[simp] theorem State.silent_index (s : State) : s.silent.index = s.index := rfl
@[simp] theorem State.silent_inp (s : State) : s.silent.inp = none := rfl
@[simp] theorem State.silent_out (s : State) : s.silent.out = {} := rfl
@[simp] theorem State.silent_vals (s : State) : s.silent.vals = s.vals := rfl
@[simp] theorem State.silent_moves (s : State) : s.silent.moves = s.moves := rfl

@[simp] theorem State.issue_bufLen (s : State) (rest : List HostMove) (i : InPorts) : (s.issue rest i).bufLen = s.bufLen := rfl
@[simp] theorem State.issue_mem (s : State) (rest : List HostMove) (i : InPorts) : (s.issue rest i).mem = s.mem := rfl
@[simp] theorem State.issue_faults (s : State) (rest : List HostMove) (i : InPorts) : (s.issue rest i).faults = s.faults := rfl
@[simp] theorem State.issue_index (s : State) (rest : List HostMove) (i : InPorts) : (s.issue rest i).index = s.index := rfl
@[simp] theorem State.issue_inp (s : State) (rest : List HostMove) (i : InPorts) : (s.issue rest i).inp = some i := rfl
@[simp] theorem State.issue_out (s : State) (rest : List HostMove) (i : InPorts) : (s.issue rest i).out = {} := rfl
@[simp] theorem State.issue_vals (s : State) (rest : List HostMove) (i : InPorts) : (s.issue rest i).vals = s.vals := rfl
@[simp] theorem State.issue_moves (s : State) (rest : List HostMove) (i : InPorts) : (s.issue rest i).moves = rest := rfl

@[simp] theorem State.complete_bufLen (s : State) (o : OutPorts) : (s.complete o).bufLen = s.bufLen := rfl
@[simp] theorem State.complete_mem (s : State) (o : OutPorts) : (s.complete o).mem = s.mem := rfl
@[simp] theorem State.complete_faults (s : State) (o : OutPorts) : (s.complete o).faults = s.faults := rfl
@[simp] theorem State.complete_index (s : State) (o : OutPorts) : (s.complete o).index = s.index + 1 := rfl
@[simp] theorem State.complete_inp (s : State) (o : OutPorts) : (s.complete o).inp = none := rfl
@[simp] theorem State.complete_out (s : State) (o : OutPorts) : (s.complete o).out = { o with fault := some faultNone } := rfl
@[simp] theorem State.complete_vals (s : State) (o : OutPorts) : (s.complete o).vals = s.vals := rfl
@[simp] theorem State.complete_moves (s : State) (o : OutPorts) : (s.complete o).moves = s.moves := rfl

@[simp] theorem State.takeFault_bufLen (s : State) (c : FaultCause) : (s.takeFault c).bufLen = s.bufLen := rfl
@[simp] theorem State.takeFault_mem (s : State) (c : FaultCause) : (s.takeFault c).mem = s.mem := rfl
@[simp] theorem State.takeFault_faults (s : State) (c : FaultCause) : (s.takeFault c).faults = s.faults ++ [⟨s.index, c⟩] := rfl
@[simp] theorem State.takeFault_index (s : State) (c : FaultCause) : (s.takeFault c).index = s.index + 1 := rfl
@[simp] theorem State.takeFault_inp (s : State) (c : FaultCause) : (s.takeFault c).inp = none := rfl
@[simp] theorem State.takeFault_out (s : State) (c : FaultCause) : (s.takeFault c).out = faultOutputs c := rfl
@[simp] theorem State.takeFault_vals (s : State) (c : FaultCause) : (s.takeFault c).vals = s.vals := rfl
@[simp] theorem State.takeFault_moves (s : State) (c : FaultCause) : (s.takeFault c).moves = s.moves := rfl

@[simp] theorem State.bind_bufLen (s : State) (r : List (Nat × OutPort)) : (State.bind r s).bufLen = s.bufLen := rfl
@[simp] theorem State.bind_mem (s : State) (r : List (Nat × OutPort)) : (State.bind r s).mem = s.mem := rfl
@[simp] theorem State.bind_faults (s : State) (r : List (Nat × OutPort)) : (State.bind r s).faults = s.faults := rfl
@[simp] theorem State.bind_index (s : State) (r : List (Nat × OutPort)) : (State.bind r s).index = s.index := rfl
@[simp] theorem State.bind_inp (s : State) (r : List (Nat × OutPort)) : (State.bind r s).inp = s.inp := rfl
@[simp] theorem State.bind_out (s : State) (r : List (Nat × OutPort)) : (State.bind r s).out = s.out := rfl
@[simp] theorem State.bind_vals (s : State) (r : List (Nat × OutPort)) : (State.bind r s).vals = s.vals ++ r.map (fun q => ⟨q.1, s.out.read q.2⟩) := rfl
@[simp] theorem State.bind_moves (s : State) (r : List (Nat × OutPort)) : (State.bind r s).moves = s.moves := rfl

@[simp] theorem State.landByte_bufLen (s : State) (a : Nat) (v : Byte) : (s.landByte a v).bufLen = s.bufLen := by
  unfold State.landByte
  split <;> rfl
@[simp] theorem State.landByte_mem (s : State) (a : Nat) (v : Byte) :
    (s.landByte a v).mem = if a < s.bufLen then s.mem.write a v else s.mem := by
  unfold State.landByte
  split <;> rfl
@[simp] theorem State.landByte_faults (s : State) (a : Nat) (v : Byte) : (s.landByte a v).faults = s.faults := by
  unfold State.landByte
  split <;> rfl
@[simp] theorem State.landByte_index (s : State) (a : Nat) (v : Byte) : (s.landByte a v).index = s.index := by
  unfold State.landByte
  split <;> rfl
@[simp] theorem State.landByte_inp (s : State) (a : Nat) (v : Byte) : (s.landByte a v).inp = s.inp := by
  unfold State.landByte
  split <;> rfl
@[simp] theorem State.landByte_out (s : State) (a : Nat) (v : Byte) : (s.landByte a v).out = s.out := by
  unfold State.landByte
  split <;> rfl
@[simp] theorem State.landByte_vals (s : State) (a : Nat) (v : Byte) : (s.landByte a v).vals = s.vals := by
  unfold State.landByte
  split <;> rfl
@[simp] theorem State.landByte_moves (s : State) (a : Nat) (v : Byte) : (s.landByte a v).moves = s.moves := by
  unfold State.landByte
  split <;> rfl

@[simp] theorem State.launch_bufLen (bytes : List Byte) (moves : List HostMove) : (State.launch bytes moves).bufLen = bytes.length := rfl
@[simp] theorem State.launch_mem (bytes : List Byte) (moves : List HostMove) : (State.launch bytes moves).mem = Memory.writeBytes [] 0 bytes := rfl
@[simp] theorem State.launch_faults (bytes : List Byte) (moves : List HostMove) : (State.launch bytes moves).faults = [] := rfl
@[simp] theorem State.launch_index (bytes : List Byte) (moves : List HostMove) : (State.launch bytes moves).index = 0 := rfl
@[simp] theorem State.launch_inp (bytes : List Byte) (moves : List HostMove) : (State.launch bytes moves).inp = none := rfl
@[simp] theorem State.launch_out (bytes : List Byte) (moves : List HostMove) : (State.launch bytes moves).out = {} := rfl
@[simp] theorem State.launch_vals (bytes : List Byte) (moves : List HostMove) : (State.launch bytes moves).vals = [] := rfl
@[simp] theorem State.launch_moves (bytes : List Byte) (moves : List HostMove) : (State.launch bytes moves).moves = moves := rfl

/-- Launching nothing gives the machine after reset (R31). -/
theorem State.launch_nil : State.launch [] [] = State.reset := rfl

end Sys2Proof.Machine
end

