-- ==== Sys2Proof/Laws/Ops.lean ====
section
/-! SUPPORT. What each shared operation can do, said once: a meaning's transaction, presenting a line, one command, one
step. -/

namespace Sys2Proof.Machine

/-- A meaning called with its ports driven leaves a next state. -/
theorem State.transact_some {s : State} {i : InPorts} (k : InPorts → State) (h : s.inp = some i) :
    s.transact k = .next (k i) := by
  simp [State.transact, h]

/-- A meaning that leaves a next state had its ports driven. -/
theorem State.transact_next {s t : State} {k : InPorts → State} (h : s.transact k = .next t) :
    ∃ i, s.inp = some i ∧ t = k i := by
  unfold State.transact at h
  split at h
  · rename_i i hi
    exact ⟨i, hi, (Host.Outcome.next.inj h).symm⟩
  · cases h

@[simp] theorem onNext_next (f : State → State) (s : State) : onNext f (.next s) = .next (f s) := rfl

theorem onNext_eq_next {f : State → State} {o : Host.Outcome State Fault Refusal} {t : State}
    (h : onNext f o = .next t) : ∃ u, o = .next u ∧ t = f u := by
  cases o with
  | next u => exact ⟨u, rfl, (Host.Outcome.next.inj h).symm⟩
  | fault r => cases h
  | refused r => cases h

/-- Everything a command can do to a state: it completes and leaves memory alone, it stores a record, or it faults on
an address out of bounds. -/
theorem exec_cases {i : Instr} {s t : State} (h : exec i s = .next t) :
    ∃ p, s.inp = some p ∧
      ((i ≠ .recSt ∧ ∃ o, t = s.complete o) ∨
       (i = .recSt ∧ s.inBounds p.addr ∧
          t = State.complete { s with mem := s.mem.writeRecord p.addr.toNat p.w } {}) ∨
       ((i = .recLd ∨ i = .recSt) ∧ ¬ s.inBounds p.addr ∧ t = s.takeFault (.recordOutOfBounds p.addr))) := by
  cases i with
  | recLd =>
    obtain ⟨p, hp, ht⟩ := State.transact_next h
    refine ⟨p, hp, ?_⟩
    by_cases hb : s.inBounds p.addr
    · exact .inl ⟨by simp, _, by rw [ht, if_pos hb]⟩
    · exact .inr (.inr ⟨.inl rfl, hb, by rw [ht, if_neg hb]⟩)
  | recSt =>
    obtain ⟨p, hp, ht⟩ := State.transact_next h
    refine ⟨p, hp, ?_⟩
    by_cases hb : s.inBounds p.addr
    · exact .inr (.inl ⟨rfl, hb, by rw [ht, if_pos hb]⟩)
    · exact .inr (.inr ⟨.inr rfl, hb, by rw [ht, if_neg hb]⟩)
  | monoEnc | monoDxyp | monoDtxyp | monoDt | trigEnc | trigDp | trigDtp | fieldUnpk _ | fieldPack _ =>
    obtain ⟨p, hp, ht⟩ := State.transact_next h
    exact ⟨p, hp, .inl ⟨by simp, _, ht⟩⟩

/-- A presented line has its command byte on `cmd`, and every name it binds is new. -/
theorem State.present_ok {s : State} {l : Line} {p : InPorts} (h : s.present l = .ok p) :
    reboundName s.boundNames l.results = none ∧
      ∃ args, argValues s.vals l.args = .ok args ∧ p = drivePorts s.index l.cmd args := by
  unfold State.present at h
  split at h
  · cases h
  · rename_i hr
    split at h
    · cases h
    · rename_i args ha
      exact ⟨hr, args, ha, (Except.ok.inj h).symm⟩

/-- A line whose results name no bound name binds new names, each once. -/
theorem reboundName_none {bound : List Nat} {results : List (Nat × OutPort)} (h : reboundName bound results = none)
    (hb : bound.Nodup) : (bound ++ results.map Prod.fst).Nodup := by
  induction results generalizing bound with
  | nil => simpa using hb
  | cons r rest ih =>
    unfold reboundName at h
    split at h
    · cases h
    · rename_i hn
      have := ih h (List.nodup_cons.2 ⟨hn, hb⟩)
      rw [List.map_cons]
      exact (List.nodup_middle).2 (by simpa using this)

/-- What a step does, by the host's next move. -/
theorem step_cases {s t : State} (h : step s = .next t) :
    (s.moves = [] ∧ t = s.silent) ∨
    (∃ a v rest, s.moves = .writeByte a v :: rest ∧ t = State.landByte { s.silent with moves := rest } a v) ∨
    (∃ rest, s.moves = .reset :: rest ∧ t = { s.silent with moves := rest }) ∨
    (∃ l rest p u, s.moves = .transact l :: rest ∧ s.present l = .ok p ∧
      perform (s.issue rest p) p = .next u ∧ t = u.bind l.results) := by
  unfold step at h
  split at h
  · rename_i hm
    exact .inl ⟨hm, (Host.Outcome.next.inj h).symm⟩
  · rename_i a v rest hm
    exact .inr (.inl ⟨a, v, rest, hm, (Host.Outcome.next.inj h).symm⟩)
  · rename_i rest hm
    exact .inr (.inr (.inl ⟨rest, hm, (Host.Outcome.next.inj h).symm⟩))
  · rename_i l rest hm
    split at h
    · cases h
    · rename_i p hp
      obtain ⟨u, hu, ht⟩ := onNext_eq_next h
      exact .inr (.inr (.inr ⟨l, rest, p, u, hm, hp, hu, ht⟩))

/-- What a presented transaction does: its command, or the IllegalCommand fault. -/
theorem perform_cases {s t : State} {p : InPorts} (h : perform s p = .next t) :
    (∃ i, decodeCmd p.cmd = .ok i ∧ exec i s = .next t) ∨
    (∃ e, decodeCmd p.cmd = .error e ∧ t = s.takeFault (.illegalCommand p.cmd)) := by
  unfold perform at h
  split at h
  · rename_i i hi
    exact .inl ⟨i, hi, h⟩
  · rename_i e he
    exact .inr ⟨e, he, (Host.Outcome.next.inj h).symm⟩

/-- A step whose head is a presented transaction performs it and binds its results. -/
theorem step_transact {s : State} {l : Line} {rest : List HostMove} {p : InPorts}
    (hm : s.moves = .transact l :: rest) (hp : s.present l = .ok p) :
    step s = onNext (State.bind l.results) (perform (s.issue rest p) p) := by
  simp [step, hm, hp]

end Sys2Proof.Machine
end

