-- ==== Sys2Proof/Laws/Exec.lean ====
section
/-! SUPPORT. What each command does once its ports are driven: the completed transaction, or the fault. -/

namespace Sys2Proof.Machine

variable {s : State} {i : InPorts}

theorem exec_monoEnc (h : s.inp = some i) :
    exec .monoEnc s = .next (s.complete { wOut := some (monoWord i.p i.x i.y i.dt) }) :=
  State.transact_some _ h

theorem exec_monoDxyp (h : s.inp = some i) :
    exec .monoDxyp s = .next (s.complete
      { xOut := some (unpack i.w .x), yOut := some (unpack i.w .y), pOut := some (unpack i.w .p) }) :=
  State.transact_some _ h

theorem exec_monoDtxyp (h : s.inp = some i) :
    exec .monoDtxyp s = .next (s.complete
      { t := some (absTime i.w i.tb), xOut := some (unpack i.w .x), yOut := some (unpack i.w .y),
        pOut := some (unpack i.w .p) }) :=
  State.transact_some _ h

theorem exec_monoDt (h : s.inp = some i) :
    exec .monoDt s = .next (s.complete { t := some (absTime i.w i.tb) }) :=
  State.transact_some _ h

theorem exec_trigEnc (h : s.inp = some i) :
    exec .trigEnc s = .next (s.complete { wOut := some (trigWord i.p i.dt) }) :=
  State.transact_some _ h

theorem exec_trigDp (h : s.inp = some i) :
    exec .trigDp s = .next (s.complete { pOut := some (unpack i.w .p) }) :=
  State.transact_some _ h

theorem exec_trigDtp (h : s.inp = some i) :
    exec .trigDtp s = .next (s.complete { t := some (absTime i.w i.tb), pOut := some (unpack i.w .p) }) :=
  State.transact_some _ h

theorem exec_fieldUnpk (f : Field) (h : s.inp = some i) :
    exec (.fieldUnpk f) s = .next (s.complete { vOut := some ((unpack i.w f).setWidth 64) }) :=
  State.transact_some _ h

theorem exec_fieldPack (f : Field) (h : s.inp = some i) :
    exec (.fieldPack f) s = .next (s.complete { wOut := some (pack i.w f i.v) }) :=
  State.transact_some _ h

theorem exec_recLd (h : s.inp = some i) (hb : s.inBounds i.addr) :
    exec .recLd s = .next (s.complete { wOut := some (s.mem.readRecord i.addr.toNat) }) :=
  (State.transact_some _ h).trans (by rw [if_pos hb])

theorem exec_recLd_outside (h : s.inp = some i) (hb : ¬ s.inBounds i.addr) :
    exec .recLd s = .next (s.takeFault (.recordOutOfBounds i.addr)) :=
  (State.transact_some _ h).trans (by rw [if_neg hb])

theorem exec_recSt (h : s.inp = some i) (hb : s.inBounds i.addr) :
    exec .recSt s =
      .next (State.complete { s with mem := s.mem.writeRecord i.addr.toNat i.w } {}) :=
  (State.transact_some _ h).trans (by rw [if_pos hb])

theorem exec_recSt_outside (h : s.inp = some i) (hb : ¬ s.inBounds i.addr) :
    exec .recSt s = .next (s.takeFault (.recordOutOfBounds i.addr)) :=
  (State.transact_some _ h).trans (by rw [if_neg hb])

/-- A command whose ports are driven leaves a next state (70_reset_and_hazards.md R148). -/
theorem exec_completes (c : Instr) (h : s.inp = some i) : ∃ t, exec c s = .next t := by
  cases c <;> exact ⟨_, State.transact_some _ h⟩

end Sys2Proof.Machine
end

