-- ==== Sys2Proof/Laws/Memory.lean ====
section
/-! SUPPORT. The laws of record memory: reading after writing, and the canonical form under every operation. -/

namespace Sys2Proof.Machine

/-- Every listed address lies below a bound. -/
def Memory.Below (m : Memory) (n : Nat) : Prop := ∀ c ∈ m, c.1 < n

/-- An address that is not listed reads as 0 (log 2). -/
@[simp] theorem Memory.unlisted_eq : Memory.unlisted = 0 := rfl

@[simp] theorem Memory.read_nil (a : Nat) : Memory.read [] a = 0 := rfl

@[simp] theorem Memory.read_cons (c : Host.Cell) (m : Memory) (a : Nat) :
    Memory.read (c :: m) a = if c.1 = a then c.2 else Memory.read m a := rfl

/-- An address that is not listed reads as the unlisted value. -/
theorem Memory.read_of_not_listed (m : Memory) (a : Nat) (h : ∀ c ∈ m, c.1 ≠ a) : m.read a = 0 := by
  induction m with
  | nil => rfl
  | cons c m ih =>
    rw [Memory.read_cons, if_neg (h c (by simp))]
    exact ih fun d hd => h d (by simp [hd])

theorem Memory.read_erase (m : Memory) (a b : Nat) :
    (m.erase a).read b = if b = a then 0 else m.read b := by
  induction m with
  | nil => simp [Memory.erase]
  | cons c m ih =>
    unfold Memory.erase at ih ⊢
    by_cases hc : c.1 = a
    · rw [List.filter_cons_of_neg (by simpa using hc), ih]
      by_cases hb : b = a
      · simp [hb]
      · have : ¬ c.1 = b := fun h => hb (h.symm.trans hc)
        simp [hb, this]
    · rw [List.filter_cons_of_pos (by simpa using hc), Memory.read_cons, Memory.read_cons, ih]
      by_cases hb : b = a
      · simp [hb, hc]
      · simp [hb]

theorem Memory.read_insert (m : Memory) (a b : Nat) (v : Byte) :
    (m.insert a v).read b = if b = a then v else m.read b := by
  induction m with
  | nil => simp [Memory.insert, eq_comm]
  | cons c m ih =>
    unfold Memory.insert
    split
    · simp [eq_comm]
    · split
      · rename_i h
        by_cases hb : b = a
        · simp [hb]
        · have : ¬ c.1 = b := fun e => hb (by omega)
          simp [hb, this, Ne.symm hb]
      · rename_i h
        rw [Memory.read_cons, ih, Memory.read_cons]
        by_cases hb : b = a
        · subst hb; simp [Ne.symm h]
        · simp [hb]

/-- A byte written reads back, and every other byte reads as before. -/
@[simp] theorem Memory.read_write (m : Memory) (a b : Nat) (v : Byte) :
    (m.write a v).read b = if b = a then v else m.read b := by
  unfold Memory.write
  split
  · rename_i h; rw [Memory.read_erase, h]; rfl
  · exact Memory.read_insert m a b v

/-- Bytes written from an address upward read back, and every other byte reads as before. -/
theorem Memory.read_writeBytes (vs : List Byte) (m : Memory) (a b : Nat) :
    (m.writeBytes a vs).read b = if h : a ≤ b ∧ b - a < vs.length then vs[b - a] else m.read b := by
  induction vs generalizing m a with
  | nil => simp [Memory.writeBytes]
  | cons v vs ih =>
    rw [Memory.writeBytes, ih, Memory.read_write]
    by_cases hb : b = a
    · subst hb; simp
    · by_cases h1 : a + 1 ≤ b ∧ b - (a + 1) < vs.length
      · have h2 : a ≤ b ∧ b - a < (v :: vs).length := by simp; omega
        rw [dif_pos h1, dif_pos h2]
        have : b - a = (b - (a + 1)) + 1 := by omega
        simp [this]
      · have h2 : ¬ (a ≤ b ∧ b - a < (v :: vs).length) := by simp; omega
        rw [dif_neg h1, dif_neg h2, if_neg hb]

/-! The canonical form. -/

theorem Memory.mem_insert {m : Memory} {a : Nat} {v : Byte} {c : Host.Cell} (h : c ∈ m.insert a v) :
    c = (a, v) ∨ c ∈ m := by
  induction m with
  | nil => simpa [Memory.insert] using h
  | cons d m ih =>
    unfold Memory.insert at h
    split at h
    · simpa using h
    · split at h
      · rcases List.mem_cons.1 h with h | h
        · exact .inl h
        · exact .inr (by simp [h])
      · rcases List.mem_cons.1 h with h | h
        · exact .inr (by simp [h])
        · exact (ih h).imp_right (by simp +contextual)

theorem Memory.wf_erase {m : Memory} (a : Nat) (h : m.wf) : (m.erase a).wf :=
  ⟨h.1.filter _, fun c hc => h.2 c (List.mem_filter.1 hc).1⟩

theorem Memory.wf_insert {m : Memory} (a : Nat) {v : Byte} (hv : v ≠ 0) (h : m.wf) : (m.insert a v).wf := by
  refine ⟨?_, fun c hc => (Memory.mem_insert hc).elim (fun e => e ▸ hv) (h.2 c)⟩
  have sorted := h.1
  clear h
  induction m with
  | nil => simp [Memory.insert]
  | cons d m ih =>
    obtain ⟨hd, hm⟩ := List.pairwise_cons.1 sorted
    unfold Memory.insert
    split
    · rename_i hlt
      refine List.pairwise_cons.2 ⟨fun c hc => ?_, sorted⟩
      rcases List.mem_cons.1 hc with rfl | hc
      · exact hlt
      · exact hlt.trans (hd c hc)
    · split
      · rename_i heq
        exact List.pairwise_cons.2 ⟨fun c hc => heq ▸ hd c hc, hm⟩
      · refine List.pairwise_cons.2 ⟨fun c hc => ?_, ih hm⟩
        rcases Memory.mem_insert hc with rfl | hc
        · show d.1 < a; omega
        · exact hd c hc

/-- A byte write keeps the canonical form. -/
theorem Memory.wf_write {m : Memory} (a : Nat) (v : Byte) (h : m.wf) : (m.write a v).wf := by
  unfold Memory.write
  split
  · exact Memory.wf_erase a h
  · rename_i hv; exact Memory.wf_insert a hv h

/-- Writing several bytes keeps the canonical form. -/
theorem Memory.wf_writeBytes (vs : List Byte) {m : Memory} (a : Nat) (h : m.wf) : (m.writeBytes a vs).wf := by
  induction vs generalizing m a with
  | nil => exact h
  | cons v vs ih => exact ih (a + 1) (Memory.wf_write a v h)

/-- A record write keeps the canonical form. -/
theorem Memory.wf_writeRecord {m : Memory} (a : Nat) (w : Word) (h : m.wf) : (m.writeRecord a w).wf :=
  Memory.wf_writeBytes _ a h

/-- Memory after reset is in canonical form. -/
theorem State.reset_mem_wf : State.reset.mem.wf := by decide

/-- A byte write inside a bound keeps every listed address below it. -/
theorem Memory.below_write {m : Memory} {n a : Nat} {v : Byte} (ha : a < n) (h : m.Below n) :
    (m.write a v).Below n := by
  intro c hc
  unfold Memory.write at hc
  split at hc
  · exact h c (List.mem_filter.1 hc).1
  · rcases Memory.mem_insert hc with rfl | hc
    · exact ha
    · exact h c hc

/-- Writing bytes inside a bound keeps every listed address below it. -/
theorem Memory.below_writeBytes (vs : List Byte) {m : Memory} {n a : Nat} (ha : a + vs.length ≤ n) (h : m.Below n) :
    (m.writeBytes a vs).Below n := by
  induction vs generalizing m a with
  | nil => exact h
  | cons v vs ih =>
    simp only [List.length_cons] at ha
    exact ih (by omega) (Memory.below_write (by omega) h)

/-- Two memories in canonical form that read alike are equal. -/
theorem Memory.eq_of_read {m n : Memory} (hm : m.wf) (hn : n.wf) (h : ∀ a, m.read a = n.read a) : m = n := by
  have first : ∀ {c : Host.Cell} {k : Memory}, Memory.wf (c :: k) → ∀ a, a < c.1 → Memory.read (c :: k) a = 0 := by
    intro c k hk a ha
    refine Memory.read_of_not_listed _ _ fun d hd => ?_
    rcases List.mem_cons.1 hd with rfl | hd
    · omega
    · have := (List.pairwise_cons.1 hk.1).1 d hd; omega
  have tail : ∀ {c : Host.Cell} {k : Memory}, Memory.wf (c :: k) → Memory.wf k := fun hk =>
    ⟨(List.pairwise_cons.1 hk.1).2, fun d hd => hk.2 d (by simp [hd])⟩
  have rest : ∀ {c : Host.Cell} {k : Memory}, Memory.wf (c :: k) → Memory.read k c.1 = 0 := by
    intro c k hk
    refine Memory.read_of_not_listed _ _ fun d hd => ?_
    have := (List.pairwise_cons.1 hk.1).1 d hd; omega
  have listed : ∀ {c : Host.Cell} {k : Memory}, Memory.wf (c :: k) → Memory.read (c :: k) c.1 ≠ 0 := by
    intro c k hk; simpa using hk.2 c (by simp)
  induction m generalizing n with
  | nil =>
    cases n with
    | nil => rfl
    | cons d n => exact absurd (h d.1).symm (listed hn)
  | cons c m ih =>
    cases n with
    | nil => exact absurd (h c.1) (listed hm)
    | cons d n =>
      have hcd : c.1 = d.1 := by
        rcases Nat.lt_trichotomy c.1 d.1 with hlt | heq | hgt
        · exact absurd ((h c.1).trans (first hn _ hlt)) (listed hm)
        · exact heq
        · exact absurd ((h d.1).symm.trans (first hm _ hgt)) (listed hn)
      have hv : c.2 = d.2 := by simpa [hcd] using h c.1
      have hcell : c = d := Prod.ext hcd hv
      subst hcell
      rw [ih (tail hm) (tail hn) fun a => ?_]
      by_cases ha : c.1 = a
      · subst ha; rw [rest hm, rest hn]
      · simpa [ha] using h a

/-! Records. -/

@[simp] theorem wordBytes_length (w : Word) : (wordBytes w).length = 8 := rfl

/-- Byte `k` of a record's bytes. -/
theorem wordBytes_getElem (w : Word) (k : Nat) (h : k < (wordBytes w).length) : (wordBytes w)[k] = wordByte w k := by
  have : k < 8 := h
  interval_cases k <;> rfl

/-- A record write changes exactly its eight bytes. -/
theorem Memory.read_writeRecord (m : Memory) (a b : Nat) (w : Word) :
    (m.writeRecord a w).read b = if a ≤ b ∧ b < a + 8 then wordByte w (b - a) else m.read b := by
  unfold Memory.writeRecord
  rw [Memory.read_writeBytes]
  by_cases h : a ≤ b ∧ b < a + 8
  · rw [dif_pos (by simp; omega), if_pos h, wordBytes_getElem]
  · rw [dif_neg (by simp; omega), if_neg h]

end Sys2Proof.Machine
end

