-- ==== Sys2Proof/Laws/Operands.lean ====
section
/-! SUPPORT. What resolving operands, presenting a line and expanding a program can do: each names the host values on which
it depends (30_encoding.md R72, R73). -/

namespace Sys2Proof.Machine

/-- A host value is bound and has a value. -/
def HasValue (vals : List HostVal) (n : Nat) : Prop := ∃ h, lookupVal vals n = some h ∧ h.value ≠ none

/-- The reason an operand or a line is refused for a name it uses. -/
def NameFault (vals : List HostVal) (n : Nat) (r : Refusal) : Prop :=
  (r = .unboundName n ∧ lookupVal vals n = none) ∨
  (r = .undrivenOutput n ∧ ∃ h, lookupVal vals n = some h ∧ h.value = none)

/-- A refused name has no value. -/
theorem NameFault.not_hasValue {vals : List HostVal} {n : Nat} {r : Refusal} (h : NameFault vals n r) :
    ¬ HasValue vals n := by
  rintro ⟨k, hk, hv⟩
  rcases h with ⟨-, hn⟩ | ⟨-, k', hk', hv'⟩
  · rw [hn] at hk; cases hk
  · rw [hk] at hk'; cases hk'; exact hv hv'

/-- An operand has a value exactly when every name in it has one. -/
theorem Operand.value_ok_iff (vals : List HostVal) (o : Operand) :
    (∃ v, Operand.value vals o = .ok v) ↔ ∀ n ∈ o.names, HasValue vals n := by
  induction o with
  | lit v => simp [Operand.value, Sys2Proof.Operand.names]
  | val n =>
    simp only [Sys2Proof.Operand.names, List.mem_singleton, forall_eq, HasValue]
    unfold Operand.value
    split <;> rename_i h <;> simp [h]
  | record base i ihb ihi =>
    rw [Sys2Proof.Operand.names, List.forall_mem_append, ← ihb, ← ihi, Operand.value]
    cases Operand.value vals base <;> cases Operand.value vals i <;> simp

/-- An operand is refused for a name in it. -/
theorem Operand.value_error {vals : List HostVal} {o : Operand} {r : Refusal} (h : Operand.value vals o = .error r) :
    ∃ n ∈ o.names, NameFault vals n r := by
  induction o with
  | lit v => cases h
  | val n =>
    refine ⟨n, by simp [Sys2Proof.Operand.names], ?_⟩
    unfold Operand.value at h
    split at h
    · rename_i hn; cases h; exact .inl ⟨rfl, hn⟩
    · rename_i hn; cases h; exact .inr ⟨rfl, _, hn, rfl⟩
    · cases h
  | record base i ihb ihi =>
    unfold Operand.value at h
    split at h
    · cases h
    · rename_i hb
      cases h
      obtain ⟨n, hn, hf⟩ := ihb hb
      exact ⟨n, by simp [Sys2Proof.Operand.names, hn], hf⟩
    · rename_i hi _
      cases h
      obtain ⟨n, hn, hf⟩ := ihi hi
      exact ⟨n, by simp [Sys2Proof.Operand.names, hn], hf⟩

/-- A line's operands have values exactly when every name in them has one. -/
theorem argValues_ok_iff (vals : List HostVal) (args : List (InPort × Operand)) :
    (∃ vs, argValues vals args = .ok vs) ↔ ∀ a ∈ args, ∀ n ∈ a.2.names, HasValue vals n := by
  induction args with
  | nil => simp [argValues]
  | cons a rest ih =>
    rw [List.forall_mem_cons, ← Operand.value_ok_iff, ← ih, argValues]
    cases Operand.value vals a.2 <;> cases argValues vals rest <;> simp

/-- A line's operands are refused for a name in one of them. -/
theorem argValues_error {vals : List HostVal} {args : List (InPort × Operand)} {r : Refusal}
    (h : argValues vals args = .error r) : ∃ a ∈ args, ∃ n ∈ a.2.names, NameFault vals n r := by
  induction args with
  | nil => cases h
  | cons a rest ih =>
    unfold argValues at h
    split at h
    · cases h
    · rename_i ho
      cases h
      obtain ⟨n, hn, hf⟩ := Operand.value_error ho
      exact ⟨_, by simp, n, hn, hf⟩
    · rename_i ha _
      cases h
      obtain ⟨b, hb, hn⟩ := ih ha
      exact ⟨b, by simp [hb], hn⟩

/-- A line binds no name a second time exactly when its result names are new and differ. -/
theorem reboundName_none_iff (bound : List Nat) (results : List (Nat × OutPort)) :
    reboundName bound results = none ↔
      (results.map Prod.fst).Nodup ∧ ∀ n ∈ results.map Prod.fst, n ∉ bound := by
  induction results generalizing bound with
  | nil => simp [reboundName]
  | cons r rest ih =>
    unfold reboundName
    split
    · rename_i h; simp; tauto
    · rename_i h
      rw [ih, List.map_cons, List.nodup_cons]
      simp only [List.mem_cons, not_or, forall_and, forall_eq_or_imp, h, not_false_eq_true, true_and]
      constructor
      · rintro ⟨hn, hne, hb⟩; exact ⟨⟨fun hm => hne _ hm rfl, hn⟩, hb⟩
      · rintro ⟨⟨hm, hn⟩, hb⟩; exact ⟨hn, fun k hk e => hm (e ▸ hk), hb⟩

/-- The name a line would bind a second time is one of its result names, bound before the line or twice by it. -/
theorem reboundName_some {bound : List Nat} {results : List (Nat × OutPort)} {n : Nat}
    (h : reboundName bound results = some n) :
    n ∈ results.map Prod.fst ∧ (n ∈ bound ∨ 2 ≤ (results.map Prod.fst).count n) := by
  induction results generalizing bound with
  | nil => cases h
  | cons r rest ih =>
    unfold reboundName at h
    split at h
    · rename_i hb; cases h; exact ⟨by simp, .inl hb⟩
    · obtain ⟨hm, hc⟩ := ih h
      refine ⟨by simp [hm], ?_⟩
      have := List.count_pos_iff.2 hm
      rcases hc with hc | hc
      · rcases List.mem_cons.1 hc with rfl | hc
        · right; rw [List.map_cons, List.count_cons_self]; omega
        · exact .inl hc
      · right; rw [List.map_cons, List.count_cons]; omega

/-- A line is presented exactly when every name it uses has a value and every name it binds is new. -/
theorem State.present_ok_iff (s : State) (l : Line) :
    (∃ p, s.present l = .ok p) ↔
      (∀ a ∈ l.args, ∀ n ∈ a.2.names, HasValue s.vals n) ∧
      (l.results.map Prod.fst).Nodup ∧ ∀ n ∈ l.results.map Prod.fst, n ∉ s.boundNames := by
  rw [← reboundName_none_iff, ← argValues_ok_iff]
  unfold State.present
  split
  · rename_i h; simp [h]
  · rename_i h
    split <;> simp_all

/-- A line is refused for a name it uses without a value, or for a name it binds a second time. -/
theorem State.present_error {s : State} {l : Line} {r : Refusal} (h : s.present l = .error r) :
    (∃ a ∈ l.args, ∃ n ∈ a.2.names, NameFault s.vals n r) ∨
    ∃ n, r = .nameBoundTwice n ∧ reboundName s.boundNames l.results = some n := by
  unfold State.present at h
  split at h
  · rename_i hn; cases h; exact .inr ⟨_, rfl, hn⟩
  · split at h
    · rename_i ha; cases h; exact .inl (argValues_error ha)
    · cases h

/-- A step whose head is a refused line is refused for the same reason. -/
theorem step_refused {s : State} {l : Line} {rest : List HostMove} {r : Refusal}
    (hm : s.moves = .transact l :: rest) (hp : s.present l = .error r) : step s = .refused r := by
  simp [step, hm, hp]

/-- The response to a presented transaction is a next state, whatever its byte (70_reset_and_hazards.md R148). -/
theorem perform_completes {s : State} {p : InPorts} (h : s.inp = some p) (q : InPorts) :
    ∃ t, perform s q = .next t := by
  unfold perform
  split
  · rename_i i _
    cases i <;> exact ⟨_, State.transact_some _ h⟩
  · exact ⟨_, rfl⟩

end Sys2Proof.Machine

namespace Sys2Proof

/-- Every name of a program lies below `aboveNames`. -/
theorem lt_aboveNames {prog : List Stmt} {s : Stmt} {n : Nat} (hs : s ∈ prog) (hn : n ∈ s.allNames) :
    n < aboveNames prog := by
  have le : ∀ (ns : List Nat) (k : Nat), k ∈ ns → k ≤ ns.foldr max 0 := by
    intro ns
    induction ns with
    | nil => intro k hk; cases hk
    | cons m ns ih =>
      intro k hk
      rw [List.foldr_cons]
      rcases List.mem_cons.1 hk with rfl | hk
      · exact le_max_left _ _
      · exact le_max_of_le_right (ih k hk)
  exact Nat.lt_succ_of_le (le _ _ (List.mem_flatMap.2 ⟨s, hs, hn⟩))

/-- The expansion takes the numbers from the first fresh name on, one for each source line. -/
theorem expandFrom_eq (fresh : Nat) (prog : List Stmt) :
    expandFrom fresh prog = (prog.zip (List.range' fresh prog.length)).flatMap fun c => c.1.expand c.2 := by
  induction prog generalizing fresh with
  | nil => rfl
  | cons s rest ih => simp [expandFrom, List.range'_succ, ih]

end Sys2Proof
end

