-- ==== Sys2Proof/Laws/PerInstr.lean ====
section
/-! SUPPORT. Facts about every instruction as syntax, one lemma per constructor. -/

namespace Sys2Proof.Laws.CommandShape

/-- The reserved bits of the command byte are 0 and the selector is 0 on an operation without one (30_encoding.md R65),
and no port is listed twice among its operands or among its results (R72). -/
def Statement (i : Instr) : Prop :=
  cmdRsv (encode i) = 0 ∧
    (cmdField (encode i) = 0 ∨ ∃ f, i = .fieldUnpk f ∨ i = .fieldPack f) ∧
    i.reads.Nodup ∧ i.drives.Nodup

theorem monoEnc : Statement .monoEnc := ⟨by decide, .inl (by decide), by decide, by decide⟩
theorem monoDxyp : Statement .monoDxyp := ⟨by decide, .inl (by decide), by decide, by decide⟩
theorem monoDtxyp : Statement .monoDtxyp := ⟨by decide, .inl (by decide), by decide, by decide⟩
theorem monoDt : Statement .monoDt := ⟨by decide, .inl (by decide), by decide, by decide⟩
theorem trigEnc : Statement .trigEnc := ⟨by decide, .inl (by decide), by decide, by decide⟩
theorem trigDp : Statement .trigDp := ⟨by decide, .inl (by decide), by decide, by decide⟩
theorem trigDtp : Statement .trigDtp := ⟨by decide, .inl (by decide), by decide, by decide⟩
theorem fieldUnpk (f : Field) : Statement (.fieldUnpk f) :=
  ⟨by cases f <;> decide, .inr ⟨f, .inl rfl⟩, by simp [Instr.reads], by simp [Instr.drives]⟩
theorem fieldPack (f : Field) : Statement (.fieldPack f) :=
  ⟨by cases f <;> decide, .inr ⟨f, .inr rfl⟩, by simp [Instr.reads], by simp [Instr.drives]⟩
theorem recLd : Statement .recLd := ⟨by decide, .inl (by decide), by decide, by decide⟩
theorem recSt : Statement .recSt := ⟨by decide, .inl (by decide), by decide, by decide⟩

end Sys2Proof.Laws.CommandShape
end

