-- ==== Sys2Proof/Tests/Slice0.lean ====
section
/-! SUPPORT. Tests against the spec's own vectors (95_test_vectors.md) and words written out from its encodings, and the
witnesses that the statements' hypotheses can be met. -/

namespace Sys2Proof.Tests

open Sys2Proof Sys2Proof.Machine

/-! ### Helpers -/

/-- A machine with a buffer of the given bytes. -/
def machine (bytes : List Byte) : State := State.launch bytes []

/-- Sixteen bytes of 0 (95_test_vectors.md section 2.5). -/
def zeros : List Byte := List.replicate 16 0

/-- The record of 43_record_access.md R110's example. -/
def example8 : List Byte := [0x39, 0x30, 0x00, 0x00, 0x64, 0x00, 0x32, 0x80]

/-- The machine with one assembler line to run. -/
def withLine (s : State) (i : Instr) (operands : List Word) : State :=
  { s with moves := [.transact (AsmLine.assemble ⟨i, operands.map .lit, []⟩)] }

/-- The outputs after one step. -/
def stepOut (s : State) : Option OutPorts :=
  match step s with
  | .next t => some t.out
  | _ => none

/-- The first `n` bytes of memory after one step. -/
def stepBytes (s : State) (n : Nat) : List Byte :=
  match step s with
  | .next t => (List.range n).map t.mem.read
  | _ => []

/-- The fault log after one step, as (index, code, info). -/
def stepLog (s : State) : List (Nat × BitVec 4 × Word) :=
  match step s with
  | .next t => t.faults.map fun e => (e.index, e.cause.code, e.cause.info)
  | _ => []

/-- The outputs of one line on a machine with no buffer. -/
def run1 (i : Instr) (operands : List Word) : Option OutPorts := stepOut (withLine (machine []) i operands)

/-! ### Decoding: words written out from 30_encoding.md R65, `rsv f op` -/

theorem test_decode_mono : decodeCmd 0b00000010#8 = .ok .monoDtxyp := by decide
theorem test_decode_trig : decodeCmd 0b00000100#8 = .ok .trigEnc := by decide
theorem test_decode_unpk_y : decodeCmd 0b00100111#8 = .ok (.fieldUnpk .y) := by decide
theorem test_decode_pack_x : decodeCmd 0b00011000#8 = .ok (.fieldPack .x) := by decide
theorem test_decode_rec : decodeCmd 0b00001010#8 = .ok .recSt := by decide
/-- 95_test_vectors.md section 2.6. -/
theorem test_decode_illegal :
    decodeCmd 0x0B = .error .reservedOp ∧ decodeCmd 0x10 = .error .selectorBits ∧
    decodeCmd 0x19 = .error .selectorBits ∧ decodeCmd 0x47 = .error .reservedBits ∧
    decodeCmd 0xFF = .error .reservedBits := by decide
/-- "In total there are exactly 17 legal bytes" (95_test_vectors.md section 2.6). -/
theorem test_decode_seventeen :
    ((List.range 256).filter fun n => (decodeTableWord 8 n).isSome) =
      [0x00, 0x01, 0x02, 0x03, 0x04, 0x05, 0x06, 0x07, 0x08, 0x09, 0x0A, 0x17, 0x18, 0x27, 0x28, 0x37, 0x38] := by
  decide +kernel

/-! ### Commands: 95_test_vectors.md sections 1 and 2 -/

theorem test_monoEnc_s1 :
    run1 .monoEnc [1, 100, 50, 12345] = some { fault := some 0, wOut := some 0x8032006400003039 } := by decide
theorem test_monoEnc_truncates :
    run1 .monoEnc [1, 0x12345, 0x9876, 5] = some { fault := some 0, wOut := some 0x9876234500000005 } := by decide
theorem test_monoDxyp_s2 :
    run1 .monoDxyp [0x8032006400003039] =
      some { fault := some 0, xOut := some 100, yOut := some 50, pOut := some 1 } := by decide
theorem test_monoDxyp_ones :
    run1 .monoDxyp [0xFFFFFFFFFFFFFFFF] =
      some { fault := some 0, xOut := some 65535, yOut := some 32767, pOut := some 1 } := by decide
theorem test_monoDtxyp_no_sign :
    run1 .monoDtxyp [0xD67812349ABCDEF0, 7] =
      some { fault := some 0, t := some 0x9ABCDEF7, xOut := some 4660, yOut := some 22136, pOut := some 1 } := by decide
theorem test_monoDtxyp_wraps :
    run1 .monoDtxyp [0x00000000FFFFFFFF, 0xFFFFFFFFFFFFFFFF] =
      some { fault := some 0, t := some 0xFFFFFFFE, xOut := some 0, yOut := some 0, pOut := some 0 } := by decide
theorem test_monoDt_s6 :
    run1 .monoDt [0x0000000000000001, 0xFFFFFFFFFFFFFFFF] = some { fault := some 0, t := some 0 } := by decide
theorem test_monoDt_no_wrap :
    run1 .monoDt [0x00000000FFFFFFFF, 0xFFFFFFFF00000000] =
      some { fault := some 0, t := some 0xFFFFFFFFFFFFFFFF } := by decide
theorem test_trigEnc_high_dt :
    run1 .trigEnc [1, 0x80000000] = some { fault := some 0, wOut := some 0x8000000080000000 } := by decide
theorem test_trigEnc_off : run1 .trigEnc [0, 7] = some { fault := some 0, wOut := some 7 } := by decide
theorem test_trigDp_s9 : run1 .trigDp [0x7FFFFFFFFFFFFFFF] = some { fault := some 0, pOut := some 0 } := by decide
theorem test_trigDp_on : run1 .trigDp [0x8000000000000000] = some { fault := some 0, pOut := some 1 } := by decide
theorem test_trigDtp_s3 :
    run1 .trigDtp [0x0000000000000064, 1000] = some { fault := some 0, t := some 1100, pOut := some 0 } := by decide
theorem test_trigDtp_garbage :
    run1 .trigDtp [0x1234BEEF00000100, 0xFFFFFFFFFFFFFF00] =
      some { fault := some 0, t := some 0, pOut := some 0 } := by decide
theorem test_fieldUnpk_x :
    run1 (.fieldUnpk .x) [0x8032006400003039] = some { fault := some 0, vOut := some 0x64 } := by decide
theorem test_fieldUnpk_y :
    run1 (.fieldUnpk .y) [0xFFFFFFFFFFFFFFFF] = some { fault := some 0, vOut := some 0x7FFF } := by decide
theorem test_fieldPack_y_clears :
    run1 (.fieldPack .y) [0xFFFFFFFFFFFFFFFF, 0] = some { fault := some 0, wOut := some 0x8000FFFFFFFFFFFF } := by decide
theorem test_fieldPack_p_bit0 :
    run1 (.fieldPack .p) [0x8032006400003039, 2] = some { fault := some 0, wOut := some 0x0032006400003039 } := by decide

/-- Section 2.5: REC.LD 4 after both stores, misaligned. -/
theorem test_recLd_misaligned :
    stepOut (withLine (machine (example8 ++ [0x08, 0x07, 0x06, 0x05, 0x04, 0x03, 0x02, 0x01])) .recLd [4]) =
      some { fault := some 0, wOut := some 0x0506070880320064 } := by decide
/-- Section 2.5: the bounds test does not wrap. -/
theorem test_recLd_top :
    stepLog (withLine (machine zeros) .recLd [0xFFFFFFFFFFFFFFF8]) = [(0, 2, 0xFFFFFFFFFFFFFFF8)] := by decide
theorem test_recSt_bytes :
    stepBytes (withLine (machine zeros) .recSt [8, 0x0102030405060708]) 16 =
      [0, 0, 0, 0, 0, 0, 0, 0, 0x08, 0x07, 0x06, 0x05, 0x04, 0x03, 0x02, 0x01] := by decide
/-- Section 2.5: REC.ST 9 with BUF_LEN 16 faults and writes no byte. -/
theorem test_recSt_outside :
    stepBytes (withLine (machine zeros) .recSt [9, 0xFFFFFFFFFFFFFFFF]) 16 = zeros ∧
    stepLog (withLine (machine zeros) .recSt [9, 0xFFFFFFFFFFFFFFFF]) = [(0, 2, 9)] := by decide

/-- Program P4, transaction 0: the byte 0x4A is illegal and writes nothing. -/
theorem test_illegal_p4 :
    stepLog { machine example8 with moves := [.transact ⟨0x4A, [(.addr, .lit 0), (.w, .lit 0)], []⟩] } = [(0, 1, 0x4A)] ∧
    stepBytes { machine example8 with moves := [.transact ⟨0x4A, [(.addr, .lit 0), (.w, .lit 0)], []⟩] } 8 = example8 := by
  decide

/-- Every row of the opcode table runs as the first instruction after reset. -/
theorem test_first_instruction :
    ∀ w ∈ [0x00, 0x01, 0x02, 0x03, 0x04, 0x05, 0x06, 0x07, 0x08, 0x09, 0x0A],
      (stepOut (State.reset.withFetchWord 8 w)).isSome = true := by decide

/-! ### The host's side -/

/-- 30_encoding.md R73: the address of record 2 of the stream at 8. -/
theorem test_record_address :
    (Sys2Proof.Machine.Operand.value [] (.record (.lit 8) (.lit 2))).toOption = some 24 := by decide

/-- 30_encoding.md R73: MONO.PUT takes a name the program does not use. -/
theorem test_monoPut_expands :
    expandProgram [.line ⟨.recLd, [.lit 0], [4]⟩, .pseudo (.monoPut (.lit 8) (.lit 1) (.lit 2) (.lit 3) (.val 4))] =
      [⟨.recLd, [.lit 0], [4]⟩, ⟨.monoEnc, [.lit 1, .lit 2, .lit 3, .val 4], [6]⟩, ⟨.recSt, [.lit 8, .val 6], []⟩] := by
  decide

/-- A torn load (20_memory.md R52): one byte of another agent's store landed first. -/
theorem test_byte_write_lands :
    stepBytes { machine example8 with moves := [.writeByte 3 0xEE, .writeByte 8 0xEE] } 9 =
      [0x39, 0x30, 0x00, 0xEE, 0x64, 0x00, 0x32, 0x80, 0x00] := by decide

/-! ### Well-formed lines, with an ill-formed one for each check -/

theorem smoke_wf : AsmLine.wf ⟨.monoEnc, [.lit 1, .val 3, .record (.lit 0) (.lit 1), .lit 0xFFFFFFFF], [7]⟩ = true := by
  decide
theorem smoke_operand_count : AsmLine.wf ⟨.monoEnc, [.lit 1, .lit 2, .lit 3], [7]⟩ = false := by decide
theorem smoke_result_count : AsmLine.wf ⟨.trigDtp, [.lit 1, .lit 2], [7]⟩ = false := by decide
theorem smoke_result_twice : AsmLine.wf ⟨.trigDtp, [.lit 1, .lit 2], [7, 7]⟩ = false := by decide
theorem smoke_literal_too_wide : AsmLine.wf ⟨.trigEnc, [.lit 2, .lit 0], [7]⟩ = false := by decide
theorem smoke_program : programWf [] [⟨.recLd, [.lit 0], [1]⟩, ⟨.trigDp, [.val 1], [2]⟩] = true := by decide
theorem smoke_used_before_bound : programWf [] [⟨.trigDp, [.val 1], [2]⟩, ⟨.recLd, [.lit 0], [1]⟩] = false := by decide
theorem smoke_bound_twice : programWf [] [⟨.recLd, [.lit 0], [1]⟩, ⟨.trigDp, [.val 1], [1]⟩] = false := by decide
theorem smoke_line_inside_program : programWf [] [⟨.recLd, [], [1]⟩] = false := by decide

/-! ### Witnesses: a concrete state and operands that meet each statement's hypotheses -/

/-- Ports of a transaction at the last legal address of a 16-byte buffer. -/
def ports : InPorts :=
  { cmd := 0x0A, p := 1, x := 0, y := 0, dt := 12345, w := 0x8032006400003039, tb := 1000, v := 2, addr := 8 }

/-- A machine in which those ports are driven. -/
def driven : State := { machine zeros with inp := some ports }

/-- For FieldUnpkResult, FieldPackResult, MonoEncResult, MonoDxypResult, MonoDtxypResult, MonoDtResult, TrigEncResult,
TrigDpResult, TrigDtpResult, and the premise `s.inp = some i` of every other statement. -/
theorem witness_driven : driven.inp = some ports := rfl
/-- EncodeDecodeAgree. -/
theorem witness_legal_byte : decodeCmd 0x38 = .ok (.fieldPack .p) := by decide
/-- FieldsPartitionTheWord, PackUnpackLaws, PackReplacesTheField (the top bit). -/
theorem witness_fields : Field.y ≠ Field.p ∧ 63 < 64 := by decide
/-- UnpackReadsTheField: two words that differ only outside the field dt, at its upper edge. -/
theorem witness_agree_on_dt : ∀ n, Field.lo .dt ≤ n → n < Field.lo .dt + Field.width .dt →
    (0x00000001FFFFFFFF : Word).getLsbD n = (0xFFFFFFFF : Word).getLsbD n := by
  intro n _ h
  have : n < 32 := h
  interval_cases n <;> decide
/-- MonoRoundTrip: ports whose w is the encoded word. -/
theorem witness_round_trip : driven.inp = some ports ∧
    { ports with w := monoWord ports.p ports.x ports.y ports.dt }.w = monoWord ports.p ports.x ports.y ports.dt := ⟨rfl, rfl⟩
/-- MonoIsolationAndSurjection: ports that carry what MONO.DXYP found in w. -/
theorem witness_decode_then_encode :
    let j : InPorts := { ports with p := 1, x := 100, y := 50, dt := 0x3039 }
    exec .monoDxyp driven = .next (driven.complete { xOut := some 100, yOut := some 50, pOut := some 1 }) ∧
    j.p = 1 ∧ j.x = (100 : BitVec 16).setWidth 32 ∧ j.y = (50 : BitVec 15).setWidth 32 ∧
    j.dt = ports.w.extractLsb' 0 32 := by
  refine ⟨(exec_monoDxyp rfl).trans ?_, by decide⟩
  rw [show unpack ports.w .x = 100 by decide, show unpack ports.w .y = 50 by decide, show unpack ports.w .p = 1 by decide]
/-- TriggerMonoInterwork: x and y are 0; and two words that agree on bits 63 and 31..0 only. -/
theorem witness_interwork : driven.inp = some ports ∧ ports.x = 0 ∧ ports.y = 0 ∧
    ports.w.msb = (0x8000000000003039 : Word).msb ∧
    ports.w.extractLsb' 0 32 = (0x8000000000003039 : Word).extractLsb' 0 32 := by decide
/-- TriggerMonoInterwork: ports whose w is the trigger word. -/
theorem witness_trigger_round_trip :
    { ports with w := trigWord ports.p ports.dt }.w = trigWord ports.p ports.dt := rfl
/-- RecLdResult, RecStResult, BoundsDecideEveryRecordAccess: the last address in bounds and the first one out. -/
theorem witness_bounds_edge : driven.inp = some ports ∧ ports.addr.toNat + 8 ≤ driven.bufLen ∧
    driven.bufLen < { ports with addr := 9 }.addr.toNat + 8 := by decide
/-- RecordAccessLaws: two in-bounds addresses exactly eight apart, and memory in canonical form. -/
theorem witness_record_laws : driven.inp = some ports ∧ ports.addr.toNat + 8 ≤ driven.bufLen ∧
    { ports with addr := 0 }.addr.toNat + 8 ≤ driven.bufLen ∧
    { ports with addr := 0 }.addr.toNat + 8 ≤ ports.addr.toNat ∧ driven.mem.wf := by decide
/-- RecordAccessLaws, first law: a state after the store, in which nothing else was written. -/
theorem witness_no_other_write : ∃ t, exec .recSt driven = .next t ∧
    { t with inp := some ports }.inp = some ports ∧ { t with inp := some ports }.bufLen = t.bufLen ∧
    ∀ k, k < 8 → { t with inp := some ports }.mem.read (ports.addr.toNat + k) = t.mem.read (ports.addr.toNat + k) := by
  obtain ⟨t, h⟩ := exec_completes (s := driven) .recSt rfl
  exact ⟨t, h, rfl, rfl, fun _ _ => rfl⟩
/-- RecordAccessLaws, third law: the loaded word on the port w. -/
theorem witness_store_back : exec .recLd driven = .next (driven.complete { wOut := some 0 }) ∧
    { ports with w := 0 }.addr = ports.addr ∧ { ports with w := 0 }.w = 0 := by
  refine ⟨(exec_recLd (i := ports) rfl (by decide)).trans ?_, by decide⟩
  rw [show driven.mem.readRecord ports.addr.toNat = 0 by decide]
/-- StoreThenLoadInOneRun. -/
theorem witness_store_then_load :
    let s : State := { machine zeros with moves :=
      [.transact ⟨0x0A, [(.addr, .lit 8), (.w, .lit 5)], []⟩, .transact ⟨0x09, [(.addr, .lit 8)], [(1, .wOut)]⟩] }
    (8 : Word).toNat + 8 ≤ s.bufLen ∧ 1 ∉ s.boundNames := by decide
/-- StreamRecordsLieAtStrideEight: the last record of two. -/
theorem witness_stream : 1 < ([7, 9] : List Word).length := by decide
/-- TornLoadMixesBytes: bytes 0 and 7 land early. -/
theorem witness_torn :
    let s : State := { machine zeros with moves :=
      ([0, 7].map fun k => HostMove.writeByte ((8 : Word).toNat + k) (wordByte 0xFFFFFFFFFFFFFFFF k)) ++
        [.transact ⟨0x09, [(.addr, .lit 8)], [(1, .wOut)]⟩] }
    (8 : Word).toNat + 8 ≤ s.bufLen ∧ (∀ k ∈ [0, 7], k < 8) ∧ 1 ∉ s.boundNames := by decide
/-- HostByteWriteChangesOneByte: the last byte of the buffer, and the first outside it. -/
theorem witness_byte_write :
    { machine zeros with moves := [.writeByte 15 1] }.moves = [.writeByte 15 1] ∧ 15 < (machine zeros).bufLen ∧
    { machine zeros with moves := [.writeByte 16 1] }.moves = [.writeByte 16 1] ∧ ¬ 16 < (machine zeros).bufLen := by decide
/-- CodecCommandsNeverFault. -/
theorem witness_codec : Instr.trigDtp ≠ .recLd ∧ Instr.trigDtp ≠ .recSt ∧ driven.inp = some ports := by decide

/-- A machine with one transaction of the given byte at the given address, and what it presents. -/
def issuing (cmd : Byte) (a : Word) : State :=
  { machine zeros with moves := [.transact ⟨cmd, [(.addr, .lit a)], [(1, .wOut)]⟩] }

/-- EveryTransactionCompletesWithItsCode and StepRunsTheDecodedInstruction: a legal byte in bounds. -/
theorem witness_presented (cmd : Byte) (a : Word) : (issuing cmd a).present ⟨cmd, [(.addr, .lit a)], [(1, .wOut)]⟩ =
    .ok (drivePorts 0 cmd [(.addr, a)]) ∧ (drivePorts 0 cmd [(.addr, a)]).addr = a ∧
    (issuing cmd a).moves = [.transact ⟨cmd, [(.addr, .lit a)], [(1, .wOut)]⟩] := ⟨rfl, rfl, rfl⟩
/-- StepRunsTheDecodedInstruction: the presented byte decodes. -/
theorem witness_decodes : decodeCmd (drivePorts 0 0x09 [(.addr, 8)]).cmd = .ok .recLd := by decide
/-- IllegalCommandFaults: a byte of each kind, at the edge of its range; each is presented by `witness_presented`. -/
theorem witness_illegal : (0x40 : Byte).toNat / 64 ≠ 0 ∧ 0xB ≤ (0x0B : Byte).toNat % 16 ∧
    ((0x1A : Byte).toNat / 16 % 4 ≠ 0 ∧ (0x1A : Byte).toNat % 16 ≠ 7 ∧ (0x1A : Byte).toNat % 16 ≠ 8) := by decide
/-- RecordOutOfBoundsFaults, EveryTransactionCompletesWithItsCode (code 2): address 9 of 16 bytes, presented by
`witness_presented`. -/
theorem witness_outside : (issuing 0x09 9).bufLen < (drivePorts 0 0x09 [(.addr, 9)]).addr.toNat + 8 := by decide
/-- FaultsArePrecise, ResultsAreBoundToTheOutputs: a step that leaves code 2, of a line that binds w_out. -/
theorem witness_faulting_step : ∃ t, step (issuing 0x09 9) = .next t ∧ t.out.fault ≠ some 0 := by
  refine ⟨_, rfl, ?_⟩
  decide
/-- FaultLogDoesNotAffectCommands, CommandFrame, OutputsDrivenAreExactlyTheListed: a command that completes. -/
theorem witness_exec : exec .trigDp driven = .next (driven.complete { pOut := some 1 }) := by
  refine (exec_trigDp rfl).trans ?_
  rw [show unpack ports.w .p = 1 by decide]
/-- CommandFrame, last clause: the bytes next to a stored record, on both sides. -/
theorem witness_store_frame : (∃ t, exec .recSt driven = .next t) ∧ driven.inp = some ports ∧
    (7 < ports.addr.toNat ∨ ports.addr.toNat + 8 ≤ 7) ∧ (16 < ports.addr.toNat ∨ ports.addr.toNat + 8 ≤ 16) :=
  ⟨exec_completes .recSt rfl, rfl, by decide, by decide⟩
/-- OutputsDrivenAreExactlyTheListed: a command that faults. -/
theorem witness_exec_fault :
    ∃ t, exec .recLd { driven with inp := some { ports with addr := 9 } } = .next t ∧ t.out.fault = some 2 :=
  ⟨_, exec_recLd_outside rfl (by decide), rfl⟩
/-- FaultLogIsNeverCleared: a run of one step from a state with a logged fault. -/
theorem witness_faulted_run : ∃ s t : State, core.run 1 s = .next t ∧ ¬ s.Clean :=
  ⟨{ machine zeros with faults := [⟨0, .illegalCommand 0x4A⟩], index := 1 }, _, rfl, by decide⟩
/-- CommandsReadOnlyTheirInputs: MONO.ENC with an x that differs above bit 15. -/
theorem witness_same_inputs : driven.inp = some ports ∧
    ports.x.extractLsb' 0 16 = { ports with x := 0x10000 }.x.extractLsb' 0 16 := by decide
/-- CommandsReadOnlyTheirInputs: REC.LD in two memories that agree on the eight bytes read. -/
theorem witness_same_record : ∀ k, k < 8 →
    driven.mem.read (ports.addr.toNat + k) = (driven.mem.write 7 1).read (ports.addr.toNat + k) := by decide
/-- AssembledLineDrivesItsPorts: a value at the upper edge of the port dt. -/
theorem witness_assembled :
    let l : AsmLine := ⟨.trigEnc, [.lit 1, .lit 0xFFFFFFFF], [1]⟩
    l.wf = true ∧ (∃ p, (machine []).present l.assemble = .ok p) ∧ l.instr.reads[1]? = some .dt ∧
    l.operands[1]? = some (.lit 0xFFFFFFFF) ∧
    Sys2Proof.Machine.Operand.value [] (.lit 0xFFFFFFFF) = .ok 0xFFFFFFFF ∧
    (0xFFFFFFFF : Word).toNat < 2 ^ InPort.width .dt :=
  ⟨by decide, ⟨_, rfl⟩, rfl, rfl, rfl, by decide⟩
/-- PseudoInstructionExpansions: operands with a value. -/
theorem witness_operands : Sys2Proof.Machine.Operand.value [] (.lit 8) = .ok 8 ∧
    Sys2Proof.Machine.Operand.value [⟨3, some 2⟩] (.val 3) = .ok 2 := ⟨rfl, rfl⟩
/-- ExpansionTakesFreshNames: a line and a pseudo-instruction of one program. -/
theorem witness_program_lines :
    let prog : List Stmt := [.line ⟨.recLd, [.lit 0], [4]⟩, .pseudo (.trigDt 5 (.val 4) (.lit 0))]
    6 ∈ [6, 7] ∧ .line ⟨.recLd, [.lit 0], [4]⟩ ∈ prog ∧ .pseudo (.trigDt 5 (.val 4) (.lit 0)) ∈ prog := by decide

/-- A machine with `%1` bound to no value and `%2` to a value, and one line that uses and binds names. -/
def naming (operand : Operand) (results : List (Nat × OutPort)) : State :=
  { machine zeros with
    vals := [⟨1, none⟩, ⟨2, some 8⟩], moves := [.transact ⟨0x0A, [(.addr, operand), (.w, .val 1)], results⟩] }

/-- ValuelessHostValueIsRefused, first clause: a name without a value in the last operand, and one inside a record's address. -/
theorem witness_valueless :
    (InPort.w, Operand.val 1) ∈ [(InPort.addr, Operand.lit 0), (.w, .val 1)] ∧ 1 ∈ (Operand.val 1).names ∧
    3 ∈ (Operand.record (.val 2) (.val 3)).names ∧
    lookupVal (naming (.lit 0) []).vals 1 = some ⟨1, none⟩ ∧ lookupVal (naming (.lit 0) []).vals 3 = none := by decide
/-- ValuelessHostValueIsRefused, second clause: the first operand is a name without a value. -/
theorem witness_valueless_first : (naming (.val 1) [(3, .fault)]).moves =
      [.transact ⟨0x0A, [(.addr, .val 1), (.w, .val 1)], [(3, .fault)]⟩] ∧
    reboundName (naming (.val 1) [(3, .fault)]).boundNames [(3, .fault)] = none ∧
    lookupVal (naming (.val 1) [(3, .fault)]).vals 1 = some ⟨1, none⟩ := by decide
/-- A valueless name behind a good operand is refused by name, and so is an unbound one inside a record's address. -/
theorem test_valueless_later_operand :
    (∃ r, step (naming (.lit 0) []) = .refused r ∧ r = .undrivenOutput 1) ∧
    (∃ r, step (naming (.record (.val 2) (.val 3)) []) = .refused r ∧ r = .unboundName 3) := ⟨⟨_, rfl, rfl⟩, ⟨_, rfl, rfl⟩⟩
/-- StepStopsOnlyForTheHostsNames: a name bound before the line, and one the line binds twice. -/
theorem test_name_bound_twice :
    (∃ r, step (naming (.lit 0) [(2, .fault)]) = .refused r ∧ r = .nameBoundTwice 2) ∧
    (∃ r, step (naming (.lit 0) [(3, .fault), (3, .fault)]) = .refused r ∧ r = .nameBoundTwice 3) :=
  ⟨⟨_, rfl, rfl⟩, ⟨_, rfl, rfl⟩⟩
/-- LineCompletesExactlyWhenItsNamesAllow: a line whose names are all in order. -/
theorem witness_names_in_order :
    let s : State := { naming (.lit 0) [] with moves := [.transact ⟨0x0A, [(.addr, .val 2)], [(3, .fault)]⟩] }
    (∀ a ∈ [(InPort.addr, Operand.val 2)], ∀ n ∈ a.2.names, lookupVal s.vals n = some ⟨2, some 8⟩) ∧
    (∀ n ∈ [3], n ∉ s.boundNames) := by decide
/-- PlacedCommandRunsNext. -/
theorem witness_placed : decodeTableWord 8 0x0A = some .recSt := by decide
/-- ResetAndLaunchValues: the last byte of the buffer. -/
theorem witness_launch : 15 < zeros.length := by decide
/-- ResetHasNoArchitecturalEffect, EmptyHostListIdles. -/
theorem witness_moves : { machine zeros with moves := [.reset] }.moves = [.reset] ∧ (machine zeros).moves = [] := by decide
/-- StepKeepsInvariant: a state that meets the invariant, with a byte listed and a fault logged, and its step. -/
theorem witness_invariant : ∃ s t : State, s.Inv ∧ step s = .next t ∧ s.mem ≠ [] ∧ s.faults ≠ [] := by
  refine ⟨{ machine example8 with faults := [⟨0, .recordOutOfBounds 1⟩], index := 1 }, _, ?_, rfl, by decide, by decide⟩
  refine ⟨by decide, by decide, ?_, by decide, by decide, ?_, by decide⟩
  · intro e he
    rw [List.mem_singleton.1 he]
    show 8 < (1 : Word).toNat + 8
    decide
  · exact ⟨by decide, fun _ => rfl⟩

end Sys2Proof.Tests
end

section
/-! SUPPORT. How a transaction ends, whatever its command byte, and what every end keeps (10_state.md R25, R27, R30). -/

namespace Sys2Proof.Machine

/-! ### The three ends of a transaction -/

/-- The ends of a transaction that began in `s`: it completes, it stores a record inside the buffer, or it faults and the
fault's record tells the truth. -/
inductive State.Ends (s : State) : State → Prop where
  | completes (o : OutPorts) : State.Ends s (s.complete o)
  | stores (a w : Word) (inside : s.inBounds a) :
      State.Ends s (State.complete { s with mem := s.mem.writeRecord a.toNat w } {})
  | faults (c : FaultCause) (truthful : c.Truthful s.bufLen) : State.Ends s (s.takeFault c)

theorem exec_ends {i : Instr} {s t : State} (h : exec i s = .next t) : s.Ends t := by
  obtain ⟨p, -, ⟨-, o, rfl⟩ | ⟨-, inside, rfl⟩ | ⟨-, outside, rfl⟩⟩ := exec_cases h
  · exact .completes o
  · exact .stores p.addr p.w inside
  · exact .faults _ (Nat.lt_of_not_le outside)

theorem perform_ends {s t : State} {p : InPorts} (h : perform s p = .next t) : s.Ends t := by
  obtain ⟨i, -, hi⟩ | ⟨e, he, rfl⟩ := perform_cases h
  · exact exec_ends hi
  · refine .faults _ fun i hi => ?_
    rw [he] at hi
    cases hi

/-- The frame of every end: the index advances by one, the ports are free, and the rest of the host's side stays. -/
theorem State.Ends.frame {s t : State} (h : s.Ends t) :
    t.index = s.index + 1 ∧ t.bufLen = s.bufLen ∧ t.vals = s.vals ∧ t.moves = s.moves ∧ t.inp = none := by
  cases h <;> exact ⟨rfl, rfl, rfl, rfl, rfl⟩

theorem State.Ends.vals_eq {s t : State} (h : s.Ends t) : t.vals = s.vals := by
  obtain ⟨-, -, hvals, -, -⟩ := h.frame
  exact hvals

/-! ### The outputs -/

theorem OutPorts.coherent_silent : OutPorts.Coherent {} := ⟨nofun, fun _ => rfl⟩

theorem OutPorts.coherent_completed (o : OutPorts) : OutPorts.Coherent { o with fault := some faultNone } :=
  ⟨fun c hc => by cases hc; decide, fun h => absurd rfl h⟩

/-- Codes 3 to 15 do not occur (60_exceptions.md R121). -/
theorem FaultCause.code_le (c : FaultCause) : c.code.toNat ≤ 2 := by
  cases c with
  | illegalCommand _ => exact Nat.le_succ 1
  | recordOutOfBounds _ => exact le_rfl

/-- A fault is told from a completed transaction by its code (R121). -/
theorem FaultCause.code_ne_zero (c : FaultCause) : c.code ≠ 0 := by
  cases c with
  | illegalCommand _ => exact (by decide : (1 : BitVec 4) ≠ 0)
  | recordOutOfBounds _ => exact (by decide : (2 : BitVec 4) ≠ 0)

theorem faultOutputs_coherent (c : FaultCause) : (faultOutputs c).Coherent :=
  ⟨fun _ hd => Option.some.inj hd ▸ c.code_le, fun _ => rfl⟩

theorem State.Ends.outCoherent {s t : State} (h : s.Ends t) : t.out.Coherent := by
  cases h with
  | completes o => exact OutPorts.coherent_completed o
  | stores a w _ => exact OutPorts.coherent_completed {}
  | faults c _ => exact faultOutputs_coherent c

/-- Where no operand output is driven, no port but `fault` holds a value (10_state.md R23). -/
theorem OutPorts.Undriven.read_eq_none {o : OutPorts} (h : o.Undriven) {q : OutPort} (hq : q ≠ .fault) :
    o.read q = none := by
  have hread : o.read q = OutPorts.read { o with fault := none } q := by
    cases q with
    | fault => exact absurd rfl hq
    | wOut | t | xOut | yOut | pOut | vOut => rfl
  rw [hread, show { o with fault := none } = ({} : OutPorts) from h]
  cases q <;> rfl

/-! ### The fault log over a run -/

/-- What `k` steps may do to the run's bookkeeping: the log is appended to, by one entry at most for each index passed, the
index moves on by `k` at most, and BUF_LEN stays. -/
structure State.LogGrows (k : Nat) (s t : State) : Prop where
  appended : ∃ more : List FaultEntry, t.faults = s.faults ++ more ∧ more.length ≤ t.index - s.index
  indexLe  : s.index ≤ t.index
  indexMax : t.index ≤ s.index + k
  bufLen   : t.bufLen = s.bufLen

/-- What leaves the log, the index and BUF_LEN alone grows the log by nothing. -/
theorem State.LogGrows.of_same {s t : State} (k : Nat) (hf : t.faults = s.faults) (hi : t.index = s.index)
    (hb : t.bufLen = s.bufLen) : State.LogGrows k s t :=
  ⟨⟨[], by simp [hf], by simp⟩, hi.ge, by omega, hb⟩

theorem State.LogGrows.trans {j k : Nat} {s t u : State} (h : State.LogGrows j s t) (h' : State.LogGrows k t u) :
    State.LogGrows (j + k) s u := by
  obtain ⟨⟨more, hf, hlen⟩, hle, hmax, hb⟩ := h
  obtain ⟨⟨more', hf', hlen'⟩, hle', hmax', hb'⟩ := h'
  refine ⟨⟨more ++ more', by rw [hf', hf, List.append_assoc], ?_⟩, hle.trans hle', by omega, hb'.trans hb⟩
  rw [List.length_append]
  omega

theorem State.Ends.logGrows {s t : State} (h : s.Ends t) : State.LogGrows 1 s t := by
  obtain ⟨hi, hb, -, -, -⟩ := h.frame
  have happ : ∃ more : List FaultEntry, t.faults = s.faults ++ more ∧ more.length ≤ 1 := by
    cases h with
    | completes o => exact ⟨[], by simp, by simp⟩
    | stores a w _ => exact ⟨[], by simp, by simp⟩
    | faults c _ => exact ⟨[⟨s.index, c⟩], rfl, le_rfl⟩
  obtain ⟨more, hf, hlen⟩ := happ
  exact ⟨⟨more, hf, by omega⟩, by omega, hi.le, hb⟩

theorem step_logGrows {s t : State} (h : step s = .next t) : State.LogGrows 1 s t := by
  obtain ⟨-, rfl⟩ | ⟨a, v, rest, -, rfl⟩ | ⟨rest, -, rfl⟩ | ⟨l, rest, p, u, -, -, hu, rfl⟩ := step_cases h
  · exact .of_same 1 rfl rfl rfl
  · exact .of_same 1 (by simp) (by simp) (by simp)
  · exact .of_same 1 rfl rfl rfl
  · obtain ⟨hf, hle, hmax, hb⟩ := (perform_ends hu).logGrows
    exact ⟨hf, hle, hmax, hb⟩

/-- A run of `k + 1` steps that leaves a state is a step and then a run of `k`. -/
theorem run_succ_next {M : Host.Core} {k : Nat} {s t : M.State} (h : M.run (k + 1) s = .next t) :
    ∃ u, M.step s = .next u ∧ M.run k u = .next t := by
  unfold Host.Core.run at h
  split at h
  · rename_i u hu
    exact ⟨u, hu, h⟩
  · cases h
  · cases h

theorem run_logGrows {k : Nat} {s t : State} (h : core.run k s = .next t) : State.LogGrows k s t := by
  induction k generalizing s with
  | zero =>
    cases h
    exact .of_same 0 rfl rfl rfl
  | succ k ih =>
    obtain ⟨u, hu, hrun⟩ := run_succ_next h
    exact Nat.add_comm 1 k ▸ (step_logGrows hu).trans (ih hrun)

theorem State.LogGrows.not_clean {k : Nat} {s t : State} (h : State.LogGrows k s t) (hs : ¬ s.Clean) : ¬ t.Clean := by
  obtain ⟨more, hf, -⟩ := h.appended
  intro ht
  exact hs (List.append_eq_nil_iff.1 (hf.symm.trans ht)).1

/-! ### The invariant under each update of the state -/

/-- The invariant does not speak of the input ports or of what the host has still to do. -/
theorem State.Inv.quiet {s : State} (h : s.Inv) (inp : Option InPorts) (moves : List HostMove) :
    State.Inv { s with inp := inp, out := {}, moves := moves } :=
  { h with outCoherent := OutPorts.coherent_silent }

theorem State.Inv.withMem {s : State} (h : s.Inv) {m : Memory} (hwf : m.wf) (hbelow : m.Below s.bufLen) :
    State.Inv { s with mem := m } :=
  { h with memCanonical := hwf, memInBuffer := hbelow }

theorem State.Inv.landByte {s : State} (h : s.Inv) (a : Nat) (v : Byte) : (s.landByte a v).Inv := by
  unfold State.landByte
  split
  · rename_i ha
    exact h.withMem (Memory.wf_write a v h.memCanonical) (Memory.below_write ha h.memInBuffer)
  · exact h

theorem State.Inv.writeRecord {s : State} (h : s.Inv) {a : Word} (inside : s.inBounds a) (w : Word) :
    State.Inv { s with mem := s.mem.writeRecord a.toNat w } :=
  h.withMem (Memory.wf_writeRecord _ w h.memCanonical) (Memory.below_writeBytes _ inside h.memInBuffer)

theorem State.Inv.complete {s : State} (h : s.Inv) (o : OutPorts) : (s.complete o).Inv :=
  { h with
    logPast := fun e he => Nat.lt_succ_of_lt (h.logPast e he)
    outCoherent := OutPorts.coherent_completed o }

/-- A truthful fault keeps the log truthful and in order, since every earlier entry lies below the index (R30). -/
theorem State.Inv.takeFault {s : State} (h : s.Inv) {c : FaultCause} (hc : c.Truthful s.bufLen) :
    (s.takeFault c).Inv :=
  { h with
    logTruthful := List.forall_mem_append.2 ⟨h.logTruthful, List.forall_mem_singleton.2 hc⟩
    logOrdered := List.pairwise_append.2
      ⟨h.logOrdered, List.pairwise_singleton _ _, fun d hd => List.forall_mem_singleton.2 (h.logPast d hd)⟩
    logPast := List.forall_mem_append.2
      ⟨fun e he => Nat.lt_succ_of_lt (h.logPast e he), List.forall_mem_singleton.2 (Nat.lt_succ_self _)⟩
    outCoherent := faultOutputs_coherent c }

theorem State.Ends.inv {s t : State} (h : s.Ends t) (hs : s.Inv) : t.Inv := by
  cases h with
  | completes o => exact hs.complete o
  | stores a w inside => exact (hs.writeRecord inside w).complete {}
  | faults c truthful => exact hs.takeFault truthful

theorem State.boundNames_bind (s : State) (results : List (Nat × OutPort)) :
    (s.bind results).boundNames = s.boundNames ++ results.map Prod.fst := by
  simp [State.boundNames, Function.comp_def]

theorem State.Inv.bind {s : State} (h : s.Inv) {results : List (Nat × OutPort)}
    (hnew : reboundName s.boundNames results = none) : (s.bind results).Inv :=
  { h with boundOnce := State.boundNames_bind s results ▸ reboundName_none hnew h.boundOnce }

theorem step_keeps_inv {s t : State} (hs : s.Inv) (h : step s = .next t) : t.Inv := by
  obtain ⟨-, rfl⟩ | ⟨a, v, rest, -, rfl⟩ | ⟨rest, -, rfl⟩ | ⟨l, rest, p, u, -, hp, hu, rfl⟩ := step_cases h
  · exact hs.quiet none s.moves
  · exact (hs.quiet none rest).landByte a v
  · exact hs.quiet none rest
  · have hends := perform_ends hu
    obtain ⟨hnew, -⟩ := State.present_ok hp
    have hbound : u.boundNames = s.boundNames := congrArg (List.map HostVal.name) hends.vals_eq
    exact (hends.inv (hs.quiet (some p) rest)).bind (hbound ▸ hnew)

end Sys2Proof.Machine
end

section
/-! SUPPORT. One normal form for every command (its bounds test, what it stores, what it drives: 10_state.md R22,
60_exceptions.md R123), what it depends on, and the host's side of a step (30_encoding.md R72). -/

namespace Sys2Proof.Machine

/-- The command is a record access, and its address is out of bounds (R123). -/
abbrev CmdOutside (c : Instr) (bufLen : Nat) (p : InPorts) : Prop :=
  (c = .recLd ∨ c = .recSt) ∧ ¬ p.addr.toNat + 8 ≤ bufLen

/-- The memory a command leaves when it completes. -/
def cmdMem (c : Instr) (m : Memory) (p : InPorts) : Memory :=
  match c with
  | .recSt => m.writeRecord p.addr.toNat p.w
  | _ => m

/-- What a command drives beside `fault` when it completes (R22). -/
def cmdOut (c : Instr) (m : Memory) (p : InPorts) : OutPorts :=
  match c with
  | .monoEnc => { wOut := some (monoWord p.p p.x p.y p.dt) }
  | .monoDxyp => { xOut := some (unpack p.w .x), yOut := some (unpack p.w .y), pOut := some (unpack p.w .p) }
  | .monoDtxyp =>
    { t := some (absTime p.w p.tb), xOut := some (unpack p.w .x), yOut := some (unpack p.w .y),
      pOut := some (unpack p.w .p) }
  | .monoDt => { t := some (absTime p.w p.tb) }
  | .trigEnc => { wOut := some (trigWord p.p p.dt) }
  | .trigDp => { pOut := some (unpack p.w .p) }
  | .trigDtp => { t := some (absTime p.w p.tb), pOut := some (unpack p.w .p) }
  | .fieldUnpk f => { vOut := some ((unpack p.w f).setWidth 64) }
  | .fieldPack f => { wOut := some (pack p.w f p.v) }
  | .recLd => { wOut := some (m.readRecord p.addr.toNat) }
  | .recSt => {}

theorem cmdMem_of_ne {c : Instr} (hc : c ≠ .recSt) (m : Memory) (p : InPorts) : cmdMem c m p = m := by
  cases c with
  | recSt => exact absurd rfl hc
  | monoEnc | monoDxyp | monoDtxyp | monoDt | trigEnc | trigDp | trigDtp | fieldUnpk _ | fieldPack _ | recLd => rfl

theorem exec_inside {c : Instr} {s : State} {p : InPorts} (h : s.inp = some p) (hb : ¬ CmdOutside c s.bufLen p) :
    exec c s = .next (State.complete { s with mem := cmdMem c s.mem p } (cmdOut c s.mem p)) := by
  cases c with
  | recLd => exact exec_recLd h (not_not.1 fun hn => hb ⟨.inl rfl, hn⟩)
  | recSt => exact exec_recSt h (not_not.1 fun hn => hb ⟨.inr rfl, hn⟩)
  | monoEnc | monoDxyp | monoDtxyp | monoDt | trigEnc | trigDp | trigDtp | fieldUnpk _ | fieldPack _ =>
    exact State.transact_some _ h

theorem exec_outside {c : Instr} {s : State} {p : InPorts} (h : s.inp = some p) (hb : CmdOutside c s.bufLen p) :
    exec c s = .next (s.takeFault (.recordOutOfBounds p.addr)) := by
  obtain ⟨rfl | rfl, hb⟩ := hb
  · exact exec_recLd_outside h hb
  · exact exec_recSt_outside h hb

/-- A command that leaves a next state had its ports driven, and ended in one of the two ways. -/
theorem exec_next {c : Instr} {s t : State} (h : exec c s = .next t) :
    ∃ p, s.inp = some p ∧
      ((¬ CmdOutside c s.bufLen p ∧ t = State.complete { s with mem := cmdMem c s.mem p } (cmdOut c s.mem p)) ∨
       (CmdOutside c s.bufLen p ∧ t = s.takeFault (.recordOutOfBounds p.addr))) := by
  obtain ⟨p, hp, -⟩ := exec_cases h
  refine ⟨p, hp, ?_⟩
  by_cases hb : CmdOutside c s.bufLen p
  · exact .inr ⟨hb, Host.Outcome.next.inj (h.symm.trans (exec_outside hp hb))⟩
  · exact .inl ⟨hb, Host.Outcome.next.inj (h.symm.trans (exec_inside hp hb))⟩

/-! ### What a command depends on -/

/-- Packing a value keeps its low bits only (40_bit_field.md R81). -/
theorem pack_congr {n : Nat} (w : Word) {f : Field} {a b : BitVec n} (h : a.setWidth f.width = b.setWidth f.width) :
    pack w f a = pack w f b := by
  rw [pack, pack, h]

/-- MONO.ENC keeps 16 bits of x and 15 bits of y (41_mono_codec.md R91). -/
theorem monoWord_congr (p : BitVec 1) {x x' y y' : BitVec 32} (dt : BitVec 32)
    (hx : x.extractLsb' 0 16 = x'.extractLsb' 0 16) (hy : y.extractLsb' 0 15 = y'.extractLsb' 0 15) :
    monoWord p x y dt = monoWord p x' y' dt := by
  rw [← BitVec.setWidth_eq_extractLsb' (by decide), ← BitVec.setWidth_eq_extractLsb' (by decide)] at hx hy
  rw [monoWord, monoWord, pack_congr (f := .x) _ hx, pack_congr (f := .y) _ hy]

/-- A record read depends on its eight bytes only (20_memory.md R42). -/
theorem Memory.readRecord_congr {m n : Memory} {a : Nat} (h : ∀ k, k < 8 → m.read (a + k) = n.read (a + k)) :
    m.readRecord a = n.readRecord a := by
  have h0 : m.read a = n.read a := h 0 (by decide)
  simp only [Memory.readRecord, h0, h 1, h 2, h 3, h 4, h 5, h 6, h 7, Nat.reduceLT]

/-- A byte of a record write is the record's in both memories, or the one before the write in both. -/
theorem Memory.read_writeRecord_congr (m n : Memory) (a : Nat) (w : Word) (b : Nat) :
    (m.writeRecord a w).read b = (n.writeRecord a w).read b ∨
      ((m.writeRecord a w).read b = m.read b ∧ (n.writeRecord a w).read b = n.read b) := by
  rw [Memory.read_writeRecord, Memory.read_writeRecord]
  by_cases hb : a ≤ b ∧ b < a + 8
  · exact .inl (by rw [if_pos hb, if_pos hb])
  · exact .inr (by rw [if_neg hb, if_neg hb]; exact ⟨rfl, rfl⟩)

/-- The stores of a command agree, byte by byte, where a REC.ST has the same address and word in both. -/
theorem read_cmdMem_congr {c : Instr} (m n : Memory) {i j : InPorts}
    (h : c = .recSt → i.addr = j.addr ∧ i.w = j.w) (b : Nat) :
    (cmdMem c m i).read b = (cmdMem c n j).read b ∨
      ((cmdMem c m i).read b = m.read b ∧ (cmdMem c n j).read b = n.read b) := by
  by_cases hc : c = .recSt
  · obtain ⟨haddr, hw⟩ := h hc
    subst hc
    simp only [cmdMem, haddr, hw]
    exact Memory.read_writeRecord_congr m n j.addr.toNat j.w b
  · rw [cmdMem_of_ne hc, cmdMem_of_ne hc]
    exact .inr ⟨rfl, rfl⟩

/-- Two runs of a command agree where its bounds test, its outputs and its store agree. -/
theorem exec_agree {c : Instr} {s s' : State} {i j : InPorts} (hi : s.inp = some i) (hj : s'.inp = some j)
    (hbounds : CmdOutside c s.bufLen i ↔ CmdOutside c s'.bufLen j) (hout : cmdOut c s.mem i = cmdOut c s'.mem j)
    (hstore : c = .recSt → i.addr = j.addr ∧ i.w = j.w) :
    ∃ t t' : State, exec c s = .next t ∧ exec c s' = .next t' ∧ t.out = t'.out ∧
      ∀ a, t.mem.read a = t'.mem.read a ∨ (t.mem.read a = s.mem.read a ∧ t'.mem.read a = s'.mem.read a) := by
  by_cases hb : CmdOutside c s.bufLen i
  · exact ⟨_, _, exec_outside hi hb, exec_outside hj (hbounds.1 hb), rfl, fun a => .inr ⟨rfl, rfl⟩⟩
  · exact ⟨_, _, exec_inside hi hb, exec_inside hj (fun h => hb (hbounds.2 h)),
      by rw [State.complete_out, State.complete_out, hout], read_cmdMem_congr s.mem s'.mem hstore⟩

/-- A command that is no record access agrees wherever its outputs do. -/
theorem exec_codec_agree {c : Instr} {s s' : State} {i j : InPorts} (hi : s.inp = some i) (hj : s'.inp = some j)
    (hc : ¬ (c = .recLd ∨ c = .recSt)) (hout : cmdOut c s.mem i = cmdOut c s'.mem j) :
    ∃ t t' : State, exec c s = .next t ∧ exec c s' = .next t' ∧ t.out = t'.out ∧
      ∀ a, t.mem.read a = t'.mem.read a ∨ (t.mem.read a = s.mem.read a ∧ t'.mem.read a = s'.mem.read a) :=
  exec_agree hi hj (iff_of_false (fun h => hc h.1) (fun h => hc h.1)) hout fun h => absurd (.inr h) hc

/-- The log is not read: with another log in its place, a command ends the same and appends the same entries. -/
theorem exec_withLog {c : Instr} {s t : State} (h : exec c s = .next t) (log : List FaultEntry) :
    ∃ more, t.faults = s.faults ++ more ∧
      exec c { s with faults := log } = .next { t with faults := log ++ more } := by
  obtain ⟨p, hp, ⟨hb, rfl⟩ | ⟨hb, rfl⟩⟩ := exec_next h
  · refine ⟨[], by simp, ?_⟩
    rw [List.append_nil]
    exact exec_inside (s := { s with faults := log }) hp hb
  · exact ⟨[⟨s.index, .recordOutOfBounds p.addr⟩], rfl, exec_outside (s := { s with faults := log }) hp hb⟩

/-! ### The host's side of a step -/

theorem step_idle {s : State} (hm : s.moves = []) : step s = .next s.silent := by
  simp [step, hm]

theorem step_writeByte {s : State} {a : Nat} {v : Byte} {rest : List HostMove} (hm : s.moves = .writeByte a v :: rest) :
    step s = .next (State.landByte { s.silent with moves := rest } a v) := by
  simp [step, hm]

theorem step_reset {s : State} {rest : List HostMove} (hm : s.moves = .reset :: rest) :
    step s = .next { s.silent with moves := rest } := by
  simp [step, hm]

theorem perform_of_decode {s : State} {p : InPorts} {i : Instr} (h : decodeCmd p.cmd = .ok i) :
    perform s p = exec i s := by
  simp [perform, h]

@[simp] theorem onNext_bind_nil (o : Host.Outcome State Fault Refusal) : onNext (State.bind []) o = o := by
  cases o with
  | next s => simp [State.bind]
  | fault r => rfl
  | refused r => rfl

/-- A step whose head is a presented transaction leaves a next state (70_reset_and_hazards.md R148). -/
theorem step_completes {s : State} {l : Line} {rest : List HostMove} {p : InPorts}
    (hm : s.moves = .transact l :: rest) (hp : s.present l = .ok p) : ∃ t, step s = .next t := by
  obtain ⟨u, hu⟩ := perform_completes (State.issue_inp s rest p) p
  exact ⟨_, by rw [step_transact hm hp, hu, onNext_next]⟩

/-- The step of a transaction leaves a next state exactly when the line is presented. -/
theorem step_next_iff_present {s : State} {l : Line} {rest : List HostMove} (hm : s.moves = .transact l :: rest) :
    (∃ t, step s = .next t) ↔ ∃ p, s.present l = .ok p := by
  constructor
  · rintro ⟨t, ht⟩
    cases hp : s.present l with
    | ok p => exact ⟨p, rfl⟩
    | error r =>
      rw [step_refused hm hp] at ht
      cases ht
  · rintro ⟨p, hp⟩
    exact step_completes hm hp

/-- The state a transaction's step leaves is an end of the issued transaction, with the line's results bound. -/
theorem step_transact_next {s t : State} {l : Line} {rest : List HostMove} (hm : s.moves = .transact l :: rest)
    (h : step s = .next t) : ∃ p u, (s.issue rest p).Ends u ∧ t = u.bind l.results := by
  obtain ⟨p, hp⟩ := (step_next_iff_present hm).1 ⟨t, h⟩
  rw [step_transact hm hp] at h
  obtain ⟨u, hu, ht⟩ := onNext_eq_next h
  exact ⟨p, u, perform_ends hu, ht⟩

/-! ### The ports of a presented line -/

theorem argValues_cons_error {vals : List HostVal} {o : Operand} {r : Refusal} (h : Operand.value vals o = .error r)
    (q : InPort) (rest : List (InPort × Operand)) : argValues vals ((q, o) :: rest) = .error r := by
  simp [argValues, h]

theorem argValues_cons_ok {vals : List HostVal} {q : InPort} {o : Operand} {rest : List (InPort × Operand)}
    {args : List (InPort × Word)} (h : argValues vals ((q, o) :: rest) = .ok args) :
    ∃ v vs, Operand.value vals o = .ok v ∧ argValues vals rest = .ok vs ∧ args = (q, v) :: vs := by
  unfold argValues at h
  split at h
  · rename_i v vs hv hvs
    exact ⟨v, vs, hv, hvs, (Except.ok.inj h).symm⟩
  · cases h
  · cases h

theorem argValues_ports {vals : List HostVal} {ops : List (InPort × Operand)} {args : List (InPort × Word)}
    (h : argValues vals ops = .ok args) : args.map Prod.fst = ops.map Prod.fst := by
  induction ops generalizing args with
  | nil => cases h; rfl
  | cons a rest ih =>
    obtain ⟨v, vs, -, hvs, rfl⟩ := argValues_cons_ok h
    rw [List.map_cons, List.map_cons, ih hvs]

theorem mem_argValues {vals : List HostVal} {ops : List (InPort × Operand)} {args : List (InPort × Word)}
    (h : argValues vals ops = .ok args) {q : InPort} {o : Operand} {v : Word} (hmem : (q, o) ∈ ops)
    (hv : Operand.value vals o = .ok v) : (q, v) ∈ args := by
  induction ops generalizing args with
  | nil => cases hmem
  | cons a rest ih =>
    obtain ⟨v', vs, hv', hvs, rfl⟩ := argValues_cons_ok h
    rcases List.mem_cons.1 hmem with rfl | hmem
    · cases hv.symm.trans hv'
      exact List.mem_cons_self
    · exact List.mem_cons_of_mem _ (ih hvs hmem)

/-- A port that is listed once carries the value listed for it. -/
theorem portValue_of_mem {args : List (InPort × Word)} (hnd : (args.map Prod.fst).Nodup) {q : InPort} {v : Word}
    (hmem : (q, v) ∈ args) (index : Nat) : portValue index args q = v := by
  induction args with
  | nil => cases hmem
  | cons a rest ih =>
    obtain ⟨hnew, hnd⟩ := List.nodup_cons.1 hnd
    unfold portValue
    rcases List.mem_cons.1 hmem with rfl | hmem
    · rw [if_pos rfl]
    · have hne : a.1 ≠ q := fun e => hnew (e ▸ List.mem_map_of_mem (f := Prod.fst) hmem)
      rw [if_neg hne, ih hnd hmem]

/-- A value that fits a narrower port comes back from it unchanged. -/
theorem setWidth_setWidth_of_fits {n : Nat} {v : Word} (h : v.toNat < 2 ^ n) : (v.setWidth n).setWidth 64 = v := by
  apply BitVec.eq_of_toNat_eq
  rw [BitVec.toNat_setWidth, BitVec.toNat_setWidth, Nat.mod_eq_of_lt h, Nat.mod_eq_of_lt v.isLt]

/-- A port carries the value put on it, where that value fits (10_state.md R21). -/
theorem drivePorts_read {index : Nat} {args : List (InPort × Word)} {q : InPort}
    (h : (portValue index args q).toNat < 2 ^ q.width) (cmd : Byte) :
    (drivePorts index cmd args).read q = portValue index args q := by
  cases q with
  | p | dt => exact (congrArg _ (if_pos h)).trans (setWidth_setWidth_of_fits h)
  | x | y => exact setWidth_setWidth_of_fits h
  | w | tb | v | addr => rfl

/-- The byte of a table word is the byte the decoder reads (30_encoding.md R70). -/
theorem decodeCmd_of_decodeTableWord {nbits w : Nat} {i : Instr} (h : decodeTableWord nbits w = some i) :
    decodeCmd (BitVec.ofNat 8 w) = .ok i := by
  unfold decodeTableWord at h
  split at h
  · cases hd : decodeCmd (BitVec.ofNat 8 w) with
    | ok j =>
      rw [hd] at h
      exact congrArg _ (Option.some.inj h)
    | error e =>
      rw [hd] at h
      cases h
  · cases h

theorem decodeCmd_encode (i : Instr) : decodeCmd (encode i) = .ok i := by
  cases i with
  | fieldUnpk f | fieldPack f => cases f <;> rfl
  | monoEnc | monoDxyp | monoDtxyp | monoDt | trigEnc | trigDp | trigDtp | recLd | recSt => rfl

/-- No command reads a port twice (30_encoding.md R72). -/
theorem reads_nodup (i : Instr) : i.reads.Nodup := by
  cases i <;> simp [Instr.reads]

end Sys2Proof.Machine
end

section
/-! The statements on the machine's state: ports, frames, the host's names, reset and the invariant (10_state.md). -/

namespace Sys2Proof.Machine

/-- Settles O42: one step grows the log by at most one entry, and growth composes along a run. -/
theorem faultLogIsNeverCleared : Obligations.FaultLogIsNeverCleared := by
  intro k s t h
  have hgrows := run_logGrows h
  exact ⟨hgrows.appended, hgrows.not_clean, hgrows.indexLe, hgrows.indexMax, hgrows.bufLen⟩

/-- Settles O57: the invariant is kept by issuing the transaction, by each of its three ends, and by binding new names. -/
theorem stepKeepsInvariant : Obligations.StepKeepsInvariant := fun _ _ hs h => step_keeps_inv hs h

/-- Settles O34: the step is the byte write itself, on a machine whose ports are free. -/
theorem hostByteWriteChangesOneByte : Obligations.HostByteWriteChangesOneByte := by
  intro s a v rest hm
  refine ⟨State.landByte { s.silent with moves := rest } a v, step_writeByte hm, ?_, fun b => ?_⟩
  · unfold State.landByte
    split <;> rfl
  · rw [State.landByte_mem]
    by_cases ha : a < s.bufLen
    · simp [ha]
    · simp [ha]

/-- Settles O40: the end of the transaction keeps the host values, and its outputs are coherent. -/
theorem resultsAreBoundToTheOutputs : Obligations.ResultsAreBoundToTheOutputs := by
  intro s t l rest hm h
  obtain ⟨p, u, hends, rfl⟩ := step_transact_next hm h
  refine ⟨by rw [State.bind_vals, hends.vals_eq]; rfl, fun hfault n q hmem hq => ?_⟩
  obtain ⟨-, hundriven⟩ := hends.outCoherent
  rw [← (hundriven hfault).read_eq_none hq]
  exact List.mem_append_right _ (List.mem_map_of_mem hmem)

/-- Settles O41: no command reads the log. -/
theorem faultLogDoesNotAffectCommands : Obligations.FaultLogDoesNotAffectCommands := by
  intro s t i log h
  obtain ⟨more, hmore, hexec⟩ := exec_withLog h log
  exact ⟨_, hexec, rfl, rfl, more, hmore, rfl⟩

/-- Settles O43: from the ports each rule lists follow equal outputs, an equal bounds test and an equal store. -/
theorem commandsReadOnlyTheirInputs : Obligations.CommandsReadOnlyTheirInputs := by
  intro c s s' i j hi hj h
  cases c with
  | monoEnc =>
    obtain ⟨hp, hx, hy, hdt⟩ := h
    exact exec_codec_agree hi hj (by simp) (by simp only [cmdOut, hp, hdt, monoWord_congr _ _ hx hy])
  | trigEnc =>
    obtain ⟨hp, hdt⟩ := h
    exact exec_codec_agree hi hj (by simp) (by simp only [cmdOut, hp, hdt])
  | monoDtxyp | monoDt | trigDtp =>
    obtain ⟨hw, htb⟩ := h
    exact exec_codec_agree hi hj (by simp) (by simp only [cmdOut, hw, htb])
  | monoDxyp | trigDp | fieldUnpk f =>
    exact exec_codec_agree hi hj (by simp) (by simp only [cmdOut, show i.w = j.w from h])
  | fieldPack f =>
    obtain ⟨hw, hv⟩ := h
    exact exec_codec_agree hi hj (by simp) (by simp only [cmdOut, hw, pack_congr _ hv])
  | recLd =>
    obtain ⟨haddr, hlen, hbytes⟩ := h
    refine exec_agree hi hj (by rw [CmdOutside, haddr, hlen]) ?_ nofun
    rw [cmdOut, cmdOut, Memory.readRecord_congr hbytes, haddr]
  | recSt =>
    obtain ⟨haddr, hw, hlen⟩ := h
    exact exec_agree hi hj (by rw [CmdOutside, haddr, hlen]) rfl fun _ => ⟨haddr, hw⟩

/-- Settles O44: a fault leaves no operand output; a completed command drives what `cmdOut` lists. -/
theorem outputsDrivenAreExactlyTheListed : Obligations.OutputsDrivenAreExactlyTheListed := by
  intro c s t h
  have hfaulted : t.out.fault ≠ some 0 → ∀ q, q ≠ .fault → t.out.read q = none := fun hfault _ hq =>
    ((exec_ends h).outCoherent.2 hfault).read_eq_none hq
  obtain ⟨p, -, ⟨-, rfl⟩ | ⟨-, rfl⟩⟩ := exec_next h
  · refine ⟨⟨_, rfl⟩, hfaulted, fun _ => ?_⟩
    cases c <;> simp [cmdOut]
  · exact ⟨⟨_, rfl⟩, hfaulted, fun hzero => absurd (Option.some.inj hzero) (FaultCause.code_ne_zero _)⟩

/-- Settles O45: the frame is that of every end, and memory is what the command stores. -/
theorem commandFrame : Obligations.CommandFrame := by
  intro c s t h
  obtain ⟨hindex, hlen, hvals, hmoves, hinp⟩ := (exec_ends h).frame
  refine ⟨hindex, hlen, hvals, hmoves, hinp, ?_⟩
  obtain ⟨p, hp, ⟨-, rfl⟩ | ⟨-, rfl⟩⟩ := exec_next h
  · refine ⟨fun hc => ?_, fun i a hi hc ha => ?_⟩
    · have hmem : cmdMem c s.mem p = s.mem := cmdMem_of_ne hc s.mem p
      exact ⟨hmem, fun a => congrArg (Memory.read · a) hmem⟩
    · cases hp.symm.trans hi
      subst hc
      exact (Memory.read_writeRecord s.mem p.addr.toNat a p.w).trans (if_neg (by omega))
  · exact ⟨fun _ => ⟨rfl, fun _ => rfl⟩, fun _ _ _ _ _ => rfl⟩

/-- Settles O46: no command reads a port twice, so each listed port carries the value at its place. -/
theorem assembledLineDrivesItsPorts : Obligations.AssembledLineDrivesItsPorts := by
  intro s l p hwf hp
  obtain ⟨-, args, hargs, rfl⟩ := State.present_ok hp
  refine ⟨decodeCmd_encode l.instr, fun k q o v hq ho hv hfits => ?_⟩
  have hlen : l.operands.length = l.instr.reads.length := by
    simp only [AsmLine.wf, Bool.and_eq_true, beq_iff_eq] at hwf
    obtain ⟨⟨⟨hlen, -⟩, -⟩, -⟩ := hwf
    exact hlen
  have hports : args.map Prod.fst = l.instr.reads := (argValues_ports hargs).trans (List.map_fst_zip hlen.ge)
  have hlisted : (q, o) ∈ l.instr.reads.zip l.operands :=
    List.mem_of_getElem? (List.getElem?_zip_eq_some.2 ⟨hq, ho⟩)
  have hport : portValue s.index args q = v :=
    portValue_of_mem (hports ▸ reads_nodup l.instr) (mem_argValues hargs hlisted hv) s.index
  exact (drivePorts_read (hport ▸ hfits) _).trans hport

/-- Settles O49: a line with such a name is not presented; its first operand is resolved first. -/
theorem valuelessHostValueIsRefused : Obligations.ValuelessHostValueIsRefused := by
  refine ⟨fun s l rest q o n hm hmem hn hvalueless => ?_, fun s l rest args q n m hm hnew hargs hval => ?_⟩
  · have hno : ¬ HasValue s.vals n := by
      rintro ⟨h, hbound, hvalue⟩
      obtain hnone | ⟨h', hbound', hnone⟩ := hvalueless
      · cases hnone.symm.trans hbound
      · cases hbound'.symm.trans hbound
        exact hvalue hnone
    cases hp : s.present l with
    | ok p => exact absurd (((State.present_ok_iff s l).1 ⟨p, hp⟩).1 (q, o) hmem n hn) hno
    | error r => exact ⟨r, step_refused hm hp⟩
  · have hfirst : Operand.value s.vals (.val n) = .error (.undrivenOutput n) := by simp [Operand.value, hval]
    refine step_refused hm ?_
    simp only [State.present, hnew, hargs, argValues_cons_error hfirst]

/-- Settles O52: the launch writes its bytes from address 0 upward. -/
theorem resetAndLaunchValues : Obligations.ResetAndLaunchValues := by
  refine ⟨⟨rfl, rfl, rfl, rfl⟩, fun bytes moves => ⟨rfl, rfl, rfl, rfl, rfl, rfl, fun a ha => ?_⟩⟩
  rw [State.launch_mem, Memory.read_writeBytes, dif_pos ⟨Nat.zero_le a, ha⟩]
  rfl

/-- Settles O56: every byte of a launch is written below their number, and log and host values are empty. -/
theorem launchMeetsInvariant : Obligations.LaunchMeetsInvariant := fun bytes _ =>
  { memCanonical := Memory.wf_writeBytes bytes 0 State.reset_mem_wf
    memInBuffer := Memory.below_writeBytes bytes (Nat.zero_add _).le nofun
    logTruthful := nofun
    logOrdered := List.Pairwise.nil
    logPast := nofun
    outCoherent := OutPorts.coherent_silent
    boundOnce := List.nodup_nil }

/-- Settles O58: only a line that is not presented stops the machine, and then for one of its names. -/
theorem stepStopsOnlyForTheHostsNames : Obligations.StepStopsOnlyForTheHostsNames := by
  intro s
  cases hm : s.moves with
  | nil => exact .inl ⟨_, step_idle hm⟩
  | cons move rest =>
    cases move with
    | writeByte a v => exact .inl ⟨_, step_writeByte hm⟩
    | reset => exact .inl ⟨_, step_reset hm⟩
    | transact l =>
      cases hp : s.present l with
      | ok p => exact .inl (step_completes hm hp)
      | error r =>
        have hstep := step_refused hm hp
        obtain ⟨a, ha, n, hn, ⟨rfl, hval⟩ | ⟨rfl, hval⟩⟩ | ⟨n, rfl, hre⟩ := State.present_error hp
        · exact .inr ⟨l, rest, n, rfl, .inl ⟨hstep, ⟨a, ha, hn⟩, hval⟩⟩
        · exact .inr ⟨l, rest, n, rfl, .inr (.inl ⟨hstep, ⟨a, ha, hn⟩, hval⟩)⟩
        · exact .inr ⟨l, rest, n, rfl, .inr (.inr ⟨hstep, reboundName_some hre⟩)⟩

/-- Settles O59: the step answers exactly when the line is presented. -/
theorem lineCompletesExactlyWhenItsNamesAllow : Obligations.LineCompletesExactlyWhenItsNamesAllow :=
  fun s l _ hm => (step_next_iff_present hm).trans (State.present_ok_iff s l)

/-- Settles O50: a presented line is performed, and decode comes first. -/
theorem stepRunsTheDecodedInstruction : Obligations.StepRunsTheDecodedInstruction := by
  intro s l rest p i hm hp hi
  obtain ⟨-, args, -, hports⟩ := State.present_ok hp
  refine ⟨by rw [hports]; rfl, ?_⟩
  rw [step_transact hm hp, perform_of_decode hi]
  rfl

/-- Settles O51: the bare line is always presented, and it binds nothing. -/
theorem placedCommandRunsNext : Obligations.PlacedCommandRunsNext := by
  intro s nbits w i h
  have hi := decodeCmd_of_decodeTableWord h
  obtain ⟨p, hp⟩ : ∃ p, (s.withFetchWord nbits w).present (bareLine (BitVec.ofNat 8 w)) = .ok p := ⟨_, rfl⟩
  obtain ⟨-, args, -, hports⟩ := State.present_ok hp
  have hcmd : p.cmd = BitVec.ofNat 8 w := by rw [hports]; rfl
  refine ⟨p, hcmd, ?_⟩
  rw [step_transact rfl hp, perform_of_decode (hcmd ▸ hi)]
  exact onNext_bind_nil _

/-- Settles O54: the idle step is the silent machine. -/
theorem emptyHostListIdles : Obligations.EmptyHostListIdles := fun _ hm => step_idle hm

/-- Settles O55: the machine after reset is the launch of nothing. -/
theorem resetMeetsInvariant : Obligations.ResetMeetsInvariant := launchMeetsInvariant [] []

end Sys2Proof.Machine
end

section
/-! SUPPORT. The bytes of a word, of a record, of a stream of records and of a packed event (20_memory.md R42 to R44, R47,
40_bit_field.md R81, 41_mono_codec.md R91). -/

namespace Sys2Proof.Machine

/-! ### The bytes of a word -/

theorem getLsbD_wordByte (w : Word) (k i : Nat) :
    (wordByte w k).getLsbD i = (decide (i < 8) && w.getLsbD (8 * k + i)) :=
  BitVec.getLsbD_extractLsb' (8 * k) 8 w i

/-- A word is determined by its eight bytes. -/
theorem word_eq_of_wordByte {v w : Word} (h : ∀ k, k < 8 → wordByte v k = wordByte w k) : v = w := by
  refine BitVec.eq_of_getLsbD_eq fun i hi => ?_
  have hbit : (wordByte v (i / 8)).getLsbD (i % 8) = (wordByte w (i / 8)).getLsbD (i % 8) := by
    rw [h (i / 8) (by omega)]
  rw [getLsbD_wordByte, getLsbD_wordByte, Nat.div_add_mod] at hbit
  simpa only [Nat.mod_lt i (Nat.succ_pos 7), decide_true, Bool.true_and] using hbit

/-- A byte of a word, by its bits. -/
theorem wordByte_eq {w : Word} {k : Nat} {v : Byte} (h : ∀ i, i < 8 → w.getLsbD (8 * k + i) = v.getLsbD i) :
    wordByte w k = v :=
  BitVec.eq_of_getLsbD_eq fun i hi => by rw [getLsbD_wordByte, decide_eq_true hi, Bool.true_and, h i hi]

/-- A byte appended below a vector weighs 1, and the vector 256. -/
theorem toNat_append_byte {n : Nat} (hi : BitVec n) (b : Byte) : (hi ++ b).toNat = hi.toNat * 256 + b.toNat := by
  rw [BitVec.toNat_append, ← Nat.shiftLeft_add_eq_or_of_lt b.isLt, Nat.shiftLeft_eq]

/-! ### Records -/

/-- The word read is the sum of its bytes at their weights (R42). -/
theorem Memory.toNat_readRecord (m : Memory) (a : Nat) :
    (m.readRecord a).toNat =
      (m.read a).toNat + (m.read (a + 1)).toNat * 0x100 + (m.read (a + 2)).toNat * 0x10000 +
        (m.read (a + 3)).toNat * 0x1000000 + (m.read (a + 4)).toNat * 0x100000000 +
        (m.read (a + 5)).toNat * 0x10000000000 + (m.read (a + 6)).toNat * 0x1000000000000 +
        (m.read (a + 7)).toNat * 0x100000000000000 := by
  unfold Memory.readRecord
  repeat rw [toNat_append_byte]
  omega

theorem toNat_wordByte (w : Word) (k : Nat) : (wordByte w k).toNat = w.toNat / 2 ^ (8 * k) % 2 ^ 8 := by
  rw [wordByte, BitVec.extractLsb'_toNat, Nat.shiftRight_eq_div_pow]

/-- Byte `k` of the word read is the byte at `a + k` (R42): the bytes below it are the remainder of the sum by its weight. -/
theorem Memory.wordByte_readRecord (m : Memory) (a : Nat) {k : Nat} (hk : k < 8) :
    wordByte (m.readRecord a) k = m.read (a + k) := by
  refine BitVec.eq_of_toNat_eq ?_
  interval_cases k <;> simp only [toNat_wordByte, Memory.toNat_readRecord, Nat.add_zero] <;> omega

/-- The record at an address is the word whose bytes stand there. -/
theorem Memory.readRecord_eq {m : Memory} {a : Nat} {w : Word} (h : ∀ k, k < 8 → m.read (a + k) = wordByte w k) :
    m.readRecord a = w :=
  word_eq_of_wordByte fun k hk => (m.wordByte_readRecord a hk).trans (h k hk)

/-- The eight bytes of a record just written (R43). -/
theorem Memory.read_writeRecord_inside (m : Memory) (a : Nat) (w : Word) {k : Nat} (hk : k < 8) :
    (m.writeRecord a w).read (a + k) = wordByte w k := by
  rw [Memory.read_writeRecord, if_pos (by omega), Nat.add_sub_cancel_left]

/-- The bytes beside a record just written (R43). -/
theorem Memory.read_writeRecord_outside (m : Memory) {a b : Nat} (w : Word) (hb : b < a ∨ a + 8 ≤ b) :
    (m.writeRecord a w).read b = m.read b :=
  (m.read_writeRecord a b w).trans (if_neg (by omega))

theorem Memory.readRecord_writeRecord (m : Memory) (a : Nat) (w : Word) : (m.writeRecord a w).readRecord a = w :=
  Memory.readRecord_eq fun _ hk => m.read_writeRecord_inside a w hk

/-! ### Streams -/

/-- Byte `j` of word `k` stands at place `8k + j` of the records of a list of words (R47). -/
theorem flatMap_wordBytes_getElem? (words : List Word) {k j : Nat} (hk : k < words.length) (hj : j < 8) :
    (words.flatMap wordBytes)[8 * k + j]? = some (wordByte words[k] j) := by
  induction words generalizing k with
  | nil => simp at hk
  | cons w words ih =>
    rw [List.flatMap_cons]
    cases k with
    | zero =>
      rw [List.getElem?_append_left (by simp; omega), List.getElem?_eq_getElem (by simp; omega), wordBytes_getElem]
      simp
    | succ k =>
      rw [List.getElem?_append_right (by simp; omega), wordBytes_length,
        show 8 * (k + 1) + j - 8 = 8 * k + j by omega, ih (by simpa using hk), List.getElem_cons_succ]

/-- A byte of the launch memory, at its address (70_reset_and_hazards.md R141). -/
theorem State.read_launch {bytes : List Byte} {a : Nat} {v : Byte} (h : bytes[a]? = some v) (moves : List HostMove) :
    (State.launch bytes moves).mem.read a = v := by
  obtain ⟨ha, rfl⟩ := List.getElem?_eq_some_iff.1 h
  rw [State.launch_mem, Memory.read_writeBytes, dif_pos ⟨Nat.zero_le a, ha⟩]
  rfl

/-! ### The packed word, bit by bit -/

/-- The field takes the low bits of the value, and every other bit stays (40_bit_field.md R81). -/
theorem getLsbD_pack {k : Nat} (w : Word) (f : Field) (v : BitVec k) {n : Nat} (hn : n < 64) :
    (pack w f v).getLsbD n = if f.lo ≤ n ∧ n < f.lo + f.width then v.getLsbD (n - f.lo) else w.getLsbD n := by
  have hw := Field.lo_add_width_le f
  simp only [pack, BitVec.getLsbD_or, BitVec.getLsbD_and, BitVec.getLsbD_not, Field.getLsbD_mask,
    BitVec.getLsbD_shiftLeft, BitVec.getLsbD_setWidth]
  by_cases hlo : f.lo ≤ n
  · by_cases hhi : n < f.lo + f.width
    · have hoff : n - f.lo < f.width := by omega
      have hoff64 : n - f.lo < 64 := by omega
      simp [hn, hlo, hhi, hoff, hoff64]
    · have hoff : ¬ n - f.lo < f.width := by omega
      simp [hn, hhi, hoff]
  · simp [hn, hlo]

/-- The bits of the word of MONO.ENC, field by field from dt up to p (41_mono_codec.md R91). -/
theorem getLsbD_monoWord (p : BitVec 1) (x y dt : BitVec 32) {n : Nat} (hn : n < 64) :
    (monoWord p x y dt).getLsbD n =
      if n < 32 then dt.getLsbD n else if n < 48 then x.getLsbD (n - 32) else if n < 63 then y.getLsbD (n - 48)
      else p.getLsbD (n - 63) := by
  simp only [monoWord, getLsbD_pack _ _ _ hn, Field.lo, Field.width]
  by_cases hdt : n < 32
  · simp [hdt]
  by_cases hx : n < 48
  · have hxlo : 32 ≤ n := by omega
    simp [hdt, hx, hxlo]
  by_cases hy : n < 63
  · have hylo : 48 ≤ n := by omega
    simp [hdt, hx, hy, hylo]
  · have hplo : 63 ≤ n := by omega
    simp [hdt, hx, hy, hplo, hn]

section
variable (p : BitVec 1) (x y dt : BitVec 32)

theorem getLsbD_monoWord_dt {j : Nat} (hj : j < 32) : (monoWord p x y dt).getLsbD j = dt.getLsbD j := by
  rw [getLsbD_monoWord p x y dt (by omega), if_pos hj]

theorem getLsbD_monoWord_x {j : Nat} (hj : j < 16) : (monoWord p x y dt).getLsbD (32 + j) = x.getLsbD j := by
  rw [getLsbD_monoWord p x y dt (by omega), if_neg (by omega), if_pos (by omega), Nat.add_sub_cancel_left]

theorem getLsbD_monoWord_y {j : Nat} (hj : j < 15) : (monoWord p x y dt).getLsbD (48 + j) = y.getLsbD j := by
  rw [getLsbD_monoWord p x y dt (by omega), if_neg (by omega), if_neg (by omega), if_pos (by omega),
    Nat.add_sub_cancel_left]

theorem getLsbD_monoWord_p : (monoWord p x y dt).getLsbD 63 = p.getLsbD 0 :=
  getLsbD_monoWord p x y dt (by decide)

/-- A byte inside dt. -/
theorem wordByte_monoWord_dt {k : Nat} (hk : k < 4) : wordByte (monoWord p x y dt) k = dt.extractLsb' (8 * k) 8 :=
  wordByte_eq fun i hi => by
    rw [getLsbD_monoWord_dt p x y dt (by omega), BitVec.getLsbD_extractLsb', decide_eq_true hi, Bool.true_and]

/-- A byte inside x. -/
theorem wordByte_monoWord_x {k : Nat} (hk : k < 2) : wordByte (monoWord p x y dt) (4 + k) = x.extractLsb' (8 * k) 8 :=
  wordByte_eq fun i hi => by
    rw [show 8 * (4 + k) + i = 32 + (8 * k + i) by omega, getLsbD_monoWord_x p x y dt (by omega),
      BitVec.getLsbD_extractLsb', decide_eq_true hi, Bool.true_and]

/-- The low byte of y. -/
theorem wordByte_monoWord_y : wordByte (monoWord p x y dt) 6 = y.extractLsb' 0 8 :=
  wordByte_eq fun i hi => by
    rw [getLsbD_monoWord_y p x y dt (by omega), BitVec.getLsbD_extractLsb', decide_eq_true hi, Bool.true_and,
      Nat.zero_add]

/-- The byte that p and the seven high bits of y share. -/
theorem wordByte_monoWord_p_y : wordByte (monoWord p x y dt) 7 = p ++ y.extractLsb' 8 7 :=
  wordByte_eq fun i hi => by
    by_cases hlow : i < 7
    · rw [show 8 * 7 + i = 48 + (8 + i) by omega, getLsbD_monoWord_y p x y dt (by omega), BitVec.getLsbD_append,
        if_pos hlow, BitVec.getLsbD_extractLsb', decide_eq_true hlow, Bool.true_and]
    · obtain rfl : i = 7 := by omega
      rw [getLsbD_monoWord_p, BitVec.getLsbD_append, if_neg hlow]

end

end Sys2Proof.Machine
end

section
/-! SUPPORT. The host's moves on record memory: a store, a load, and the byte writes of another agent (20_memory.md R51,
R52). -/

namespace Sys2Proof.Machine

/-- A run of `k + 1` steps after a step that leaves a state. -/
theorem run_succ {k : Nat} {s u : State} (h : step s = .next u) : core.run (k + 1) s = core.run k u := by
  have hcore : core.step s = .next u := h
  simp only [Host.Core.run, hcore]

/-- A REC.ST of a word at an address in bounds, both given as literals (43_record_access.md R111). -/
theorem step_store {s : State} {a w : Word} {rest : List HostMove} (hb : s.inBounds a)
    (hm : s.moves = .transact ⟨0x0A, [(.addr, .lit a), (.w, .lit w)], []⟩ :: rest) :
    step s = .next { s with
      mem := s.mem.writeRecord a.toNat w, inp := none, out := { fault := some 0 }, index := s.index + 1,
      moves := rest } := by
  have hp : s.present ⟨0x0A, [(.addr, .lit a), (.w, .lit w)], []⟩ =
      .ok (drivePorts s.index 0x0A [(.addr, a), (.w, w)]) := rfl
  have hcmd : decodeCmd (drivePorts s.index 0x0A [(.addr, a), (.w, w)]).cmd = .ok .recSt :=
    (by decide : decodeCmd 0x0A = .ok .recSt)
  rw [step_transact hm hp, perform_of_decode hcmd, exec_recSt (State.issue_inp ..) hb]
  exact onNext_bind_nil _

/-- A REC.LD of an address in bounds, given as a literal, whose result is bound to a new name (43_record_access.md R110). -/
theorem step_load {s : State} {a : Word} {n : Nat} {rest : List HostMove} (hb : s.inBounds a)
    (hn : n ∉ s.boundNames) (hm : s.moves = .transact ⟨0x09, [(.addr, .lit a)], [(n, .wOut)]⟩ :: rest) :
    step s = .next { s with
      inp := none, out := { fault := some 0, wOut := some (s.mem.readRecord a.toNat) }, index := s.index + 1,
      vals := s.vals ++ [⟨n, some (s.mem.readRecord a.toNat)⟩], moves := rest } := by
  have hnew : reboundName s.boundNames [(n, .wOut)] = none := if_neg hn
  have hp : s.present ⟨0x09, [(.addr, .lit a)], [(n, .wOut)]⟩ = .ok (drivePorts s.index 0x09 [(.addr, a)]) := by
    rw [State.present, hnew]
    rfl
  have hcmd : decodeCmd (drivePorts s.index 0x09 [(.addr, a)]).cmd = .ok .recLd :=
    (by decide : decodeCmd 0x09 = .ok .recLd)
  rw [step_transact hm hp, perform_of_decode hcmd, exec_recLd (State.issue_inp ..) hb]
  rfl

/-- Byte writes of another agent, each in the buffer and of the byte of one word at its place: they land in any order, and
the run goes on from the memory they leave (20_memory.md R52). -/
theorem run_byteWrites {s : State} {a : Nat} (w : Word) {early : List Nat} {rest : List HostMove}
    (hlen : a + 8 ≤ s.bufLen) (hearly : ∀ k ∈ early, k < 8)
    (hm : s.moves = early.map (fun k => HostMove.writeByte (a + k) (wordByte w k)) ++ rest) (more : Nat) :
    ∃ u : State, core.run (early.length + more) s = core.run more u ∧ u.moves = rest ∧ u.vals = s.vals ∧
      u.bufLen = s.bufLen ∧
      ∀ k, u.mem.read (a + k) = if k ∈ early then wordByte w k else s.mem.read (a + k) := by
  induction early generalizing s with
  | nil => exact ⟨s, by rw [List.length_nil, Nat.zero_add], hm, rfl, rfl, fun k => by simp⟩
  | cons j early ih =>
    obtain ⟨hj, hearly⟩ := List.forall_mem_cons.1 hearly
    obtain ⟨u, hrun, hmoves, hvals, hbuf, hmem⟩ :=
      ih (s := State.landByte { s.silent with moves := _ } (a + j) (wordByte w j)) (by simpa using hlen) hearly
        (State.landByte_moves ..)
    refine ⟨u, ?_, hmoves, by simpa using hvals, by simpa using hbuf, fun k => ?_⟩
    · rw [List.length_cons, Nat.add_right_comm]
      exact (run_succ (step_writeByte hm)).trans hrun
    · have hin : a + j < s.bufLen := by omega
      rw [hmem, State.landByte_mem]
      by_cases hk : k = j
      · simp [hk, hin]
      · simp [hk, hin]

end Sys2Proof.Machine
end

section
/-! The statements on record memory: byte order, bounds, streams, and the order of accesses (20_memory.md). -/

namespace Sys2Proof.Machine

/-- Settles O24: the sum of the bytes at their weights comes first, and each byte is a quotient of it. -/
theorem recordReadIsLittleEndian : Obligations.RecordReadIsLittleEndian :=
  fun m a => ⟨fun _ hk => m.wordByte_readRecord a hk, m.toNat_readRecord a⟩

/-- Settles O25: a record write puts the word's bytes at its eight addresses; the example's bytes are computed. -/
theorem recordWriteIsLittleEndian : Obligations.RecordWriteIsLittleEndian := by
  refine ⟨fun m a w => ⟨fun _ hk => m.read_writeRecord_inside a w hk, fun _ hb => m.read_writeRecord_outside w hb⟩,
    fun m a => ?_⟩
  have hread : ∀ k, k < 8 → (m.writeRecord a 0x8032006400003039).read (a + k) = wordByte 0x8032006400003039 k :=
    fun _ hk => m.read_writeRecord_inside a _ hk
  exact ⟨hread 0 (by decide), hread 1 (by decide), hread 2 (by decide), hread 3 (by decide), hread 4 (by decide),
    hread 5 (by decide), hread 6 (by decide), hread 7 (by decide)⟩

/-- Settles O26: each stored byte is a byte of the packed word, which lies in one field, or in y and p at the top. -/
theorem storedEventBytePlacement : Obligations.StoredEventBytePlacement := by
  intro m a p x y dt
  have hread : ∀ k, k < 8 → (m.writeRecord a (monoWord p x y dt)).read (a + k) = wordByte (monoWord p x y dt) k :=
    fun _ hk => m.read_writeRecord_inside a _ hk
  exact ⟨(hread 7 (by decide)).trans (wordByte_monoWord_p_y p x y dt),
    (hread 6 (by decide)).trans (wordByte_monoWord_y p x y dt),
    (hread 5 (by decide)).trans (wordByte_monoWord_x p x y dt (k := 1) (by decide)),
    (hread 4 (by decide)).trans (wordByte_monoWord_x p x y dt (k := 0) (by decide)),
    fun k hk => (hread k (by omega)).trans (wordByte_monoWord_dt p x y dt hk)⟩

/-- Settles O29: a record access in bounds completes, and any other takes the fault. -/
theorem boundsDecideEveryRecordAccess : Obligations.BoundsDecideEveryRecordAccess := by
  intro s i c hc hi
  by_cases hb : i.addr.toNat + 8 ≤ s.bufLen
  · have hzero : (0 : BitVec 4) ≠ 2 := by decide
    exact ⟨_, exec_inside hi fun ⟨_, hout⟩ => hout hb, iff_of_true rfl hb,
      iff_of_false (fun h => hzero (Option.some.inj h)) (not_not.2 hb), fun h => absurd (Option.some.inj h) hzero⟩
  · have htwo : (2 : BitVec 4) ≠ 0 := by decide
    exact ⟨_, exec_outside hi ⟨hc, hb⟩, iff_of_false (fun h => htwo (Option.some.inj h)) hb, iff_of_true rfl hb,
      fun _ => ⟨rfl, rfl, rfl⟩⟩

/-- Settles O31: the store is in memory before the load's step begins, so the load reads it back. -/
theorem storeThenLoadInOneRun : Obligations.StoreThenLoadInOneRun := by
  intro s a w n rest hb hn hm
  refine ⟨_, (run_succ (step_store hb hm)).trans (run_succ (step_load hb hn rfl)), ?_, rfl, rfl, rfl, fun k hk => ?_⟩
  · rw [Memory.readRecord_writeRecord]
  · exact Memory.read_writeRecord_inside _ _ w hk

/-- Settles O32: byte j of record k is byte 8k + j of the stream; the last one lies in the buffer, and so do all. -/
theorem streamRecordsLieAtStrideEight : Obligations.StreamRecordsLieAtStrideEight := by
  intro before after words moves k h s
  have hbyte : ∀ j, j < 8 →
      (before ++ words.flatMap wordBytes ++ after)[before.length + 8 * k + j]? = some (wordByte words[k] j) := by
    intro j hj
    have hword := flatMap_wordBytes_getElem? words h hj
    obtain ⟨hlen, -⟩ := List.getElem?_eq_some_iff.1 hword
    rw [List.append_assoc, Nat.add_assoc, List.getElem?_append_right (by omega), Nat.add_sub_cancel_left,
      List.getElem?_append_left hlen, hword]
  refine ⟨Memory.readRecord_eq fun j hj => State.read_launch (hbyte j hj) moves, ?_⟩
  obtain ⟨hlast, -⟩ := List.getElem?_eq_some_iff.1 (hbyte 7 (by decide))
  exact hlast

/-- Settles O33: the early byte writes leave the mix in memory, and the load reads it byte by byte. -/
theorem tornLoadMixesBytes : Obligations.TornLoadMixesBytes := by
  intro s a w early n rest hb hearly hn hm
  obtain ⟨u, hrun, hmoves, hvals, hbuf, hmem⟩ := run_byteWrites w hb hearly hm 1
  have hin : u.inBounds a := hb.trans hbuf.ge
  have hnew : n ∉ u.boundNames := by rwa [State.boundNames, hvals]
  refine ⟨_, _, hrun.trans (run_succ (step_load hin hnew hmoves)), by rw [hvals], fun k hk => ?_⟩
  exact (u.mem.wordByte_readRecord a.toNat hk).trans (hmem k)

/-- Settles O47: the expansions are the definition's, and the address of a record is a sum modulo 2^64. -/
theorem pseudoInstructionExpansions : Obligations.PseudoInstructionExpansions := by
  intro n k base i w a p x y dt tb vals b e
  refine ⟨rfl, rfl, rfl, rfl, rfl, rfl, fun hbase hi => ⟨b + 8 * e, by simp only [Operand.value, hbase, hi], ?_⟩⟩
  rw [BitVec.toNat_add, BitVec.toNat_mul, Nat.add_mod_mod]
  rfl

end Sys2Proof.Machine
end

section
/-! SUPPORT. The command byte and its three fields, the decoder's cases, the place of each field in the word, and the names
an expansion leaves free (30_encoding.md R60 to R62, R65 to R69, R73). -/

namespace Sys2Proof.Machine

/-! ### The command byte -/

theorem toNat_cmdOp (c : Byte) : (cmdOp c).toNat = c.toNat % 16 := by
  rw [cmdOp, BitVec.extractLsb'_toNat, Nat.shiftRight_zero]

theorem toNat_cmdField (c : Byte) : (cmdField c).toNat = c.toNat / 16 % 4 := by
  rw [cmdField, BitVec.extractLsb'_toNat, Nat.shiftRight_eq_div_pow]

theorem toNat_cmdRsv (c : Byte) : (cmdRsv c).toNat = c.toNat / 64 := by
  rw [cmdRsv, BitVec.extractLsb'_toNat, Nat.shiftRight_eq_div_pow]
  exact Nat.mod_eq_of_lt (by have := c.isLt; omega)

/-- A byte with no reserved bit set is the byte of its selector and its operation code (R65). -/
theorem eq_cmdByte_of_cmdRsv_eq_zero {c : Byte} (h : cmdRsv c = 0) : c = cmdByte (cmdField c) (cmdOp c) := by
  have hselector : cmdRsv c ++ cmdField c = c.extractLsb' 4 4 :=
    BitVec.extractLsb'_append_extractLsb'_eq_extractLsb' rfl
  have hbyte : c.extractLsb' 4 4 ++ cmdOp c = c.extractLsb' 0 8 :=
    BitVec.extractLsb'_append_extractLsb'_eq_extractLsb' rfl
  rw [BitVec.extractLsb'_eq_self, ← hselector, h] at hbyte
  exact hbyte.symm

/-- Each of the four selector values names a field of its own (R66). -/
theorem selectorOfField_fieldOfSelector (f : BitVec 2) : selectorOfField (fieldOfSelector f) = f := by
  revert f
  decide

/-- An operation without a selector is encoded with selector 0 and its code (R67). -/
theorem encode_of_plainOp {op : BitVec 4} {i : Instr} (h : plainOp op = some i) : encode i = cmdByte 0 op := by
  revert op i
  decide

/-- The codes that are no operation without a selector: the two that take one, and those that are no operation. -/
theorem plainOp_eq_none_iff (op : BitVec 4) : plainOp op = none ↔ op = 7 ∨ op = 8 ∨ 0xB ≤ op.toNat := by
  revert op
  decide

/-- The bytes the decoder gives an instruction, by its three fields (R68). -/
theorem decodeCmd_eq_ok_iff_fields {c : Byte} {i : Instr} : decodeCmd c = .ok i ↔
    cmdRsv c = 0 ∧ ((cmdOp c = 7 ∧ i = .fieldUnpk (fieldOfSelector (cmdField c))) ∨
      (cmdOp c = 8 ∧ i = .fieldPack (fieldOfSelector (cmdField c))) ∨
      (cmdField c = 0 ∧ plainOp (cmdOp c) = some i)) := by
  unfold decodeCmd
  split
  next hr => exact iff_of_false nofun fun h => hr h.1
  next hr =>
    replace hr : cmdRsv c = 0 := not_not.1 hr
    split
    next h7 => simp [hr, h7, plainOp, eq_comm]
    next h7 =>
      split
      next h8 => simp [hr, h8, plainOp, eq_comm]
      next h8 =>
        split
        next hf => simp_all
        next hf => cases hp : plainOp (cmdOp c) <;> simp_all

/-- A byte that decodes to an instruction is that instruction's encoded byte (R68). -/
theorem eq_encode_of_decodeCmd {c : Byte} {i : Instr} (h : decodeCmd c = .ok i) : c = encode i := by
  obtain ⟨hr, ⟨hop, rfl⟩ | ⟨hop, rfl⟩ | ⟨hf, hp⟩⟩ := decodeCmd_eq_ok_iff_fields.1 h
  · rw [encode, selectorOfField_fieldOfSelector, ← hop, ← eq_cmdByte_of_cmdRsv_eq_zero hr]
  · rw [encode, selectorOfField_fieldOfSelector, ← hop, ← eq_cmdByte_of_cmdRsv_eq_zero hr]
  · rw [encode_of_plainOp hp, ← hf, ← eq_cmdByte_of_cmdRsv_eq_zero hr]

theorem decodeCmd_eq_ok_iff {c : Byte} {i : Instr} : decodeCmd c = .ok i ↔ c = encode i :=
  ⟨eq_encode_of_decodeCmd, fun h => h ▸ decodeCmd_encode i⟩

/-- The bytes that spell an instruction, by their three fields (R69). -/
theorem exists_decodeCmd_iff (c : Byte) : (∃ i, decodeCmd c = .ok i) ↔
    cmdRsv c = 0 ∧ (cmdOp c = 7 ∨ cmdOp c = 8 ∨ (cmdField c = 0 ∧ plainOp (cmdOp c) ≠ none)) := by
  simp only [decodeCmd_eq_ok_iff_fields, exists_and_left, exists_or, exists_eq, and_true, ne_eq,
    Option.ne_none_iff_exists']

/-! ### The fields of a packed word -/

/-- Every bit position of the word lies in a field (R62). -/
theorem Field.exists_covering {n : Nat} (h : n < 64) : ∃ f : Field, f.lo ≤ n ∧ n < f.lo + f.width := by
  by_cases hdt : n < 32
  · exact ⟨.dt, Nat.zero_le n, by simpa using hdt⟩
  by_cases hx : n < 48
  · exact ⟨.x, not_lt.1 hdt, hx⟩
  by_cases hy : n < 63
  · exact ⟨.y, not_lt.1 hx, hy⟩
  · exact ⟨.p, not_lt.1 hy, h⟩

/-- A bit position lies in one field only (R62). -/
theorem Field.eq_of_getLsbD_mask {f g : Field} {n : Nat} (hf : f.mask.getLsbD n = true)
    (hg : g.mask.getLsbD n = true) : g = f := by
  rw [Field.getLsbD_mask, decide_eq_true_iff] at hf hg
  by_contra hne
  have hapart := Field.apart hne
  omega

/-- A word is its four fields, the one at bit 63 first (R60). -/
theorem eq_append_unpack (w : Word) : w = unpack w .p ++ unpack w .y ++ unpack w .x ++ unpack w .dt := by
  have hpy : unpack w .p ++ unpack w .y = w.extractLsb' 48 16 :=
    BitVec.extractLsb'_append_extractLsb'_eq_extractLsb' rfl
  have hpyx : w.extractLsb' 48 16 ++ unpack w .x = w.extractLsb' 32 32 :=
    BitVec.extractLsb'_append_extractLsb'_eq_extractLsb' rfl
  have hword : w.extractLsb' 32 32 ++ unpack w .dt = w.extractLsb' 0 64 :=
    BitVec.extractLsb'_append_extractLsb'_eq_extractLsb' rfl
  rw [hpy, hpyx, hword, BitVec.extractLsb'_eq_self]

/-! ### The names of a source line -/

theorem mem_allNames_line {l : AsmLine} {n : Nat} :
    n ∈ (Stmt.line l).allNames ↔ (∃ o ∈ l.operands, n ∈ o.names) ∨ n ∈ l.names := by
  simp [Stmt.allNames, Stmt.expand, AsmLine.allNames]

/-- The names the expansion of a program takes for `%_k`, one for each source line (R73). -/
def freshNames (prog : List Stmt) : List Nat := List.range' (aboveNames prog) prog.length

/-- No source line uses or binds a name the expansion takes. -/
theorem notMem_allNames_of_mem_freshNames {prog : List Stmt} {k : Nat} {s : Stmt} (hk : k ∈ freshNames prog)
    (hs : s ∈ prog) : k ∉ s.allNames := fun hn =>
  Nat.not_le.2 (lt_aboveNames hs hn) (List.mem_range'_1.1 hk).1

end Sys2Proof.Machine
end

section
/-! The statements on encodings: the command byte, the packed word, and the expansion of a program (30_encoding.md). -/

namespace Sys2Proof.Machine

/-- Settles O3: the decoder gives each instruction for its byte, and a byte is determined by the fields it decodes by. -/
theorem encodeDecodeAgree : Obligations.EncodeDecodeAgree :=
  ⟨decodeCmd_encode, fun _ _ => eq_encode_of_decodeCmd⟩

/-- Settles O6: fields that are apart share no bit, and every bit lies in a field. -/
theorem fieldsPartitionTheWord : Obligations.FieldsPartitionTheWord := by
  refine ⟨fun f g hne => BitVec.eq_of_getLsbD_eq fun n _ => ?_, by decide, fun n hn => ?_⟩
  · rw [BitVec.getLsbD_and, BitVec.ofNat_eq_ofNat, BitVec.getLsbD_zero, Bool.and_eq_false_imp]
    exact fun hf => Bool.eq_false_iff.2 fun hg => hne (Field.eq_of_getLsbD_mask hg hf)
  · obtain ⟨f, hf⟩ := Field.exists_covering hn
    have hbit : f.mask.getLsbD n = true := (Field.getLsbD_mask f n).trans (decide_eq_true hf)
    exact ⟨f, hbit, fun _ => Field.eq_of_getLsbD_mask hbit⟩

/-- Settles O7: the parts are the unpacked fields. -/
theorem packedWordLayout : Obligations.PackedWordLayout := fun w =>
  ⟨unpack w .p, unpack w .y, unpack w .x, unpack w .dt, eq_append_unpack w, rfl, rfl, rfl, rfl⟩

/-- Settles O48: the names taken are the numbers from `aboveNames` on, and the names of a pseudo-instruction all stand in its
expansion. -/
theorem expansionTakesFreshNames : Obligations.ExpansionTakesFreshNames := by
  intro prog
  refine ⟨freshNames prog, List.length_range', List.nodup_range', fun k hk l hl => ?_, fun k hk q hq => ?_, ?_⟩
  · have hfree := notMem_allNames_of_mem_freshNames hk hl
    rw [mem_allNames_line, not_or] at hfree
    exact ⟨fun o ho hn => hfree.1 ⟨o, ho, hn⟩, hfree.2⟩
  · have hfree := notMem_allNames_of_mem_freshNames hk hq
    cases q <;> simp_all [Stmt.allNames, Stmt.expand, Pseudo.expand, AsmLine.allNames, Operand.names]
  · refine (expandFrom_eq _ prog).trans (congrArg (fun f => List.flatMap f _) (funext fun c => ?_))
    obtain ⟨s, k⟩ := c
    cases s <;> rfl

/-- Settles O1: the opcode map is the encoder's table. -/
theorem decodeFollowsOpcodeMap : Obligations.DecodeFollowsOpcodeMap := by
  intro c i
  rw [decodeCmd_eq_ok_iff]
  cases i with
  | fieldUnpk f | fieldPack f => cases f <;> rfl
  | monoEnc | monoDxyp | monoDtxyp | monoDt | trigEnc | trigDp | trigDtp | recLd | recSt => rfl

/-- Settles O2: the fields by which the decoder accepts a byte, read as numbers. -/
theorem illegalBytesAreExactlyTheReserved : Obligations.IllegalBytesAreExactlyTheReserved := by
  intro c
  rw [← not_exists, exists_decodeCmd_iff, ne_eq (plainOp _), plainOp_eq_none_iff]
  simp only [BitVec.toNat_eq, toNat_cmdRsv, toNat_cmdField, toNat_cmdOp, BitVec.ofNat_eq_ofNat, BitVec.toNat_ofNat]
  omega

/-- Settles O4: each byte is the encoder's byte of its command. -/
theorem writtenOutBytesDecode : Obligations.WrittenOutBytesDecode :=
  ⟨decodeCmd_encode .monoEnc, decodeCmd_encode .trigDtp, decodeCmd_encode (.fieldUnpk .x),
    decodeCmd_encode (.fieldPack .p), decodeCmd_encode .recLd, decodeCmd_encode .recSt⟩

/-- Settles O5: the in-word mask is the shifted value mask by definition, and the table's rows are computed. -/
theorem fieldDescriptorTable : Obligations.FieldDescriptorTable :=
  ⟨fun _ => rfl, by decide, by decide, by decide, by decide⟩

end Sys2Proof.Machine
end

section
/-! SUPPORT. The value of an unpacked field, and how packing one field shows in each field of the word (40_bit_field.md R80,
R81, R84). -/

namespace Sys2Proof.Machine

/-! ### The value of a field -/

theorem Field.toNat_ones (f : Field) : f.ones.toNat = 2 ^ f.width - 1 := by cases f <;> rfl

theorem toNat_unpack (w : Word) (f : Field) : (unpack w f).toNat = w.toNat / 2 ^ f.lo % 2 ^ f.width := by
  rw [unpack, BitVec.extractLsb'_toNat, Nat.shiftRight_eq_div_pow]

/-- Zero extension to the width of an output port keeps the value of a field. -/
theorem toNat_setWidth_unpack (w : Word) (f : Field) : ((unpack w f).setWidth 64).toNat = (unpack w f).toNat :=
  BitVec.toNat_setWidth_of_le (le_trans (Nat.le_add_left _ _) (Field.lo_add_width_le f))

/-- The shift-and-mask form of an unpacked field (R80): masking with `ones` is the remainder by a power of two. -/
theorem setWidth_unpack_eq_shift_and_ones (w : Word) (f : Field) :
    (unpack w f).setWidth 64 = (w >>> f.lo) &&& f.ones :=
  BitVec.eq_of_toNat_eq <| by
    rw [toNat_setWidth_unpack, toNat_unpack, BitVec.toNat_and, BitVec.toNat_ushiftRight, Field.toNat_ones,
      Nat.and_two_pow_sub_one_eq_mod, Nat.shiftRight_eq_div_pow]

/-- An unpacked field, by its bits. -/
theorem unpack_eq {w : Word} {f : Field} {v : BitVec f.width}
    (h : ∀ i, i < f.width → w.getLsbD (f.lo + i) = v.getLsbD i) : unpack w f = v :=
  BitVec.eq_of_getLsbD_eq fun i hi => by rw [getLsbD_unpack, decide_eq_true hi, Bool.true_and, h i hi]

/-- Words that agree on the bits of a field have the same field (R80). -/
theorem unpack_congr {w w' : Word} {f : Field}
    (h : ∀ n, f.lo ≤ n → n < f.lo + f.width → w'.getLsbD n = w.getLsbD n) : unpack w' f = unpack w f :=
  unpack_eq fun i hi => by
    rw [h _ (Nat.le_add_right _ _) (Nat.add_lt_add_left hi _), getLsbD_unpack, decide_eq_true hi, Bool.true_and]

/-- A word is determined by its four fields (R60). -/
theorem word_eq_of_unpack {v w : Word} (h : ∀ f, unpack v f = unpack w f) : v = w := by
  rw [eq_append_unpack v, h, h, h, h, ← eq_append_unpack w]

/-! ### The fields of a word after pack -/

section
variable {k l : Nat} (w : Word) (a : BitVec k) (b : BitVec l)

/-- The field packed holds the value, truncated (R84, law 1). -/
@[simp] theorem unpack_pack_same (f : Field) : unpack (pack w f a) f = a.setWidth f.width :=
  unpack_eq fun i hi => by
    have hw := Field.lo_add_width_le f
    rw [getLsbD_pack w f a (by omega), if_pos (by omega), Nat.add_sub_cancel_left, BitVec.getLsbD_setWidth,
      decide_eq_true hi, Bool.true_and]

/-- Every other field is as before (R84, law 2): no bit position belongs to both. -/
@[simp] theorem unpack_pack_of_ne {f g : Field} (hne : f ≠ g) : unpack (pack w f a) g = unpack w g :=
  unpack_congr fun n hlo hhi => by
    have hapart := Field.apart hne
    have hw := Field.lo_add_width_le g
    rw [getLsbD_pack w f a (by omega), if_neg (by omega)]

/-- Packing what was unpacked gives the word back (R84, law 3). -/
theorem pack_unpack (f : Field) : pack w f (unpack w f) = w :=
  word_eq_of_unpack fun g => by
    obtain rfl | hne := eq_or_ne f g
    · simp
    · simp [hne]

/-- The last pack of a field wins (R84, law 4). -/
theorem pack_pack_same (f : Field) : pack (pack w f a) f b = pack w f b :=
  word_eq_of_unpack fun g => by
    obtain rfl | hne := eq_or_ne f g
    · simp
    · simp [hne]

/-- Packs of different fields commute (R84, law 5): each field holds what its own pack put there. -/
theorem pack_pack_comm {f g : Field} (hne : f ≠ g) : pack (pack w f a) g b = pack (pack w g b) f a :=
  word_eq_of_unpack fun e => by
    obtain rfl | hf := eq_or_ne f e
    · simp [hne.symm]
    obtain rfl | hg := eq_or_ne g e
    · simp [hne]
    · simp [hf, hg]

end

end Sys2Proof.Machine
end

section
/-! The statements on the bit-field primitives and the two commands that expose them (40_bit_field.md). -/

namespace Sys2Proof.Machine

/-- Settles O8: the field is read by shift and mask, as a number and bit by bit. -/
theorem unpackReadsTheField : Obligations.UnpackReadsTheField := fun w f =>
  ⟨setWidth_unpack_eq_shift_and_ones w f, toNat_unpack w f, fun _ => unpack_congr⟩

/-- Settles O9: the two masks of pack, read bit by bit. -/
theorem packReplacesTheField : Obligations.PackReplacesTheField := fun _ w f v _ hn => getLsbD_pack w f v hn

/-- Settles O10: laws 1 and 2 say what pack does to each field, and a word is its fields. -/
theorem packUnpackLaws : Obligations.PackUnpackLaws := fun _ _ w f _ a b hne =>
  ⟨unpack_pack_same w a f, unpack_pack_of_ne w a hne, pack_unpack w f, pack_pack_same w a b f,
    pack_pack_comm w a b hne⟩

/-- Settles O11: the command completes with the zero-extended field. -/
theorem fieldUnpkResult : Obligations.FieldUnpkResult := by
  refine ⟨⟨decodeCmd_encode (.fieldUnpk .dt), decodeCmd_encode (.fieldUnpk .x), decodeCmd_encode (.fieldUnpk .y),
    decodeCmd_encode (.fieldUnpk .p)⟩, fun s i f hinp => ⟨(unpack i.w f).setWidth 64, ?_, ?_, exec_fieldUnpk f hinp⟩⟩
  · rw [toNat_setWidth_unpack, toNat_unpack]
  · rw [toNat_setWidth_unpack]
    exact (unpack i.w f).isLt

/-- Settles O12: the command completes with the packed word. -/
theorem fieldPackResult : Obligations.FieldPackResult :=
  ⟨⟨decodeCmd_encode (.fieldPack .dt), decodeCmd_encode (.fieldPack .x), decodeCmd_encode (.fieldPack .y),
    decodeCmd_encode (.fieldPack .p)⟩,
    fun _ i f hinp => ⟨pack i.w f i.v, fun _ hn => getLsbD_pack i.w f i.v hn, exec_fieldPack f hinp⟩⟩

end Sys2Proof.Machine
end

section
/-! SUPPORT. The fields of the word of MONO.ENC, its two written-out forms, and the absolute time as a masked and a
modular sum (41_mono_codec.md R90, R91). -/

namespace Sys2Proof.Machine

/-- Zero extension of the low bits of a vector, masked in place or taken out. -/
theorem setWidth_and_lowMask {k n m : Nat} (v : BitVec k) (h : n ≤ k) :
    (v &&& BitVec.ofNat k (2 ^ n - 1)).setWidth m = (v.extractLsb' 0 n).setWidth m := by
  have hpow : 2 ^ n ≤ 2 ^ k := Nat.pow_le_pow_right (by decide) h
  have hpos : 0 < 2 ^ n := Nat.two_pow_pos n
  have hmask : (2 ^ n - 1) % 2 ^ k = 2 ^ n - 1 := Nat.mod_eq_of_lt (by omega)
  refine BitVec.eq_of_toNat_eq ?_
  rw [BitVec.toNat_setWidth, BitVec.toNat_setWidth, BitVec.toNat_and, BitVec.toNat_ofNat, hmask,
    Nat.and_two_pow_sub_one_eq_mod, BitVec.extractLsb'_toNat, Nat.shiftRight_zero]

/-! ### The fields of an encoded word -/

section
variable (p : BitVec 1) (x y dt : BitVec 32)

@[simp] theorem unpack_monoWord_p : unpack (monoWord p x y dt) .p = p := by
  rw [monoWord, unpack_pack_of_ne _ _ (by decide), unpack_pack_of_ne _ _ (by decide), unpack_pack_of_ne _ _ (by decide),
    unpack_pack_same, BitVec.setWidth_eq]

@[simp] theorem unpack_monoWord_y : unpack (monoWord p x y dt) .y = y.setWidth 15 := by
  rw [monoWord, unpack_pack_of_ne _ _ (by decide), unpack_pack_of_ne _ _ (by decide), unpack_pack_same]

@[simp] theorem unpack_monoWord_x : unpack (monoWord p x y dt) .x = x.setWidth 16 := by
  rw [monoWord, unpack_pack_of_ne _ _ (by decide), unpack_pack_same]

@[simp] theorem unpack_monoWord_dt : unpack (monoWord p x y dt) .dt = dt := by
  rw [monoWord, unpack_pack_same, BitVec.setWidth_eq]

/-- The word of MONO.ENC as a concatenation (R91): every word is its four fields. -/
theorem monoWord_eq_append : monoWord p x y dt = p ++ y.extractLsb' 0 15 ++ x.extractLsb' 0 16 ++ dt := by
  rw [← BitVec.setWidth_eq_extractLsb' (by decide), ← BitVec.setWidth_eq_extractLsb' (by decide),
    eq_append_unpack (monoWord p x y dt), unpack_monoWord_p, unpack_monoWord_y, unpack_monoWord_x, unpack_monoWord_dt]

/-- The word of MONO.ENC as the OR of its masked and shifted inputs (R91). -/
theorem monoWord_eq_shift_or :
    monoWord p x y dt = (p.setWidth 64 <<< 63) ||| ((y &&& 0x7FFF).setWidth 64 <<< 48)
      ||| ((x &&& 0xFFFF).setWidth 64 <<< 32) ||| dt.setWidth 64 := by
  have hy : (y &&& 0x7FFF).setWidth 64 = (y.extractLsb' 0 15).setWidth 64 :=
    setWidth_and_lowMask (n := 15) y (by decide)
  have hx : (x &&& 0xFFFF).setWidth 64 = (x.extractLsb' 0 16).setWidth 64 :=
    setWidth_and_lowMask (n := 16) x (by decide)
  calc monoWord p x y dt
      = (p ++ y.extractLsb' 0 15 ++ x.extractLsb' 0 16 ++ dt).setWidth 64 := by
        rw [← monoWord_eq_append, BitVec.setWidth_eq]
    _ = (p.setWidth 64 <<< 63) ||| ((y.extractLsb' 0 15).setWidth 64 <<< 48)
          ||| ((x.extractLsb' 0 16).setWidth 64 <<< 32) ||| dt.setWidth 64 :=
        BitVec.setWidth_append_append_append_eq_shiftLeft_setWidth_or
    _ = _ := by rw [hy, hx]

/-- The encoding of a word's own fields, zero-extended to the ports of MONO.ENC, is the word (R95, law 4). -/
theorem monoWord_unpack (w : Word) :
    monoWord (unpack w .p) ((unpack w .x).setWidth 32) ((unpack w .y).setWidth 32) (unpack w .dt) = w :=
  word_eq_of_unpack fun f => by
    cases f with
    | dt => rw [unpack_monoWord_dt]
    | x => rw [unpack_monoWord_x, BitVec.setWidth_setWidth_of_le _ (by decide), BitVec.setWidth_eq]
    | y => rw [unpack_monoWord_y, BitVec.setWidth_setWidth_of_le _ (by decide), BitVec.setWidth_eq]
    | p => rw [unpack_monoWord_p]

/-! ### The absolute time -/

/-- Decoding the time of an encoded word adds its dt (R95, law 1). -/
@[simp] theorem absTime_monoWord (tb : Word) : absTime (monoWord p x y dt) tb = tb + dt.setWidth 64 := by
  rw [absTime, unpack_monoWord_dt]

end

/-- The absolute time adds the masked word (R90). -/
theorem absTime_eq_add_and (w tb : Word) : absTime w tb = tb + (w &&& 0xFFFFFFFF) :=
  congrArg (tb + ·) (setWidth_unpack_eq_shift_and_ones w .dt)

/-- The absolute time as a number, modulo 2^64 (R90). -/
theorem toNat_absTime (w tb : Word) : (absTime w tb).toNat = (tb.toNat + w.toNat % 2 ^ 32) % 2 ^ 64 := by
  rw [absTime, BitVec.toNat_add, toNat_setWidth_unpack, toNat_unpack, Nat.pow_zero, Nat.div_one]

end Sys2Proof.Machine
end

section
/-! The statements on the mono event codec (41_mono_codec.md). -/

namespace Sys2Proof.Machine

/-- Settles O14: the packed word is its four fields, and a concatenation is the OR of its shifted parts. -/
theorem monoEncResult : Obligations.MonoEncResult :=
  ⟨decodeCmd_encode .monoEnc, fun _ i hinp =>
    ⟨monoWord i.p i.x i.y i.dt, monoWord_eq_append i.p i.x i.y i.dt, monoWord_eq_shift_or i.p i.x i.y i.dt,
      exec_monoEnc hinp⟩⟩

/-- Settles O18: each decoded field is the encoded input, truncated to the field. -/
theorem monoRoundTrip : Obligations.MonoRoundTrip := by
  refine fun s i j hinp => ⟨_, monoWord i.p i.x i.y i.dt, exec_monoEnc hinp, rfl, fun hw =>
    ⟨_, exec_monoDtxyp rfl, ?_⟩⟩
  rw [hw, absTime_monoWord, unpack_monoWord_x, unpack_monoWord_y, unpack_monoWord_p]
  rfl

/-- Settles O19: a field of an encoded word is a function of its own input, and a word is the encoding of its fields. -/
theorem monoIsolationAndSurjection : Obligations.MonoIsolationAndSurjection := by
  refine ⟨fun p p' x x' y y' dt dt' => ⟨?_, ?_, ?_, ?_⟩, fun s i j hinp =>
    ⟨_, unpack i.w .x, unpack i.w .y, unpack i.w .p, exec_monoDxyp hinp, rfl, rfl, rfl, fun hp hx hy hdt =>
      ⟨_, exec_monoEnc rfl, ?_⟩⟩⟩
  · exact (unpack_monoWord_p p x y dt).trans (unpack_monoWord_p p x' y' dt').symm
  · exact (unpack_monoWord_x p x y dt).trans (unpack_monoWord_x p' x y' dt').symm
  · exact (unpack_monoWord_y p x y dt).trans (unpack_monoWord_y p' x' y dt').symm
  · exact (unpack_monoWord_dt p x y dt).trans (unpack_monoWord_dt p' x' y' dt).symm
  · rw [hp, hx, hy, hdt]
    exact congrArg some (monoWord_unpack i.w)

/-- Settles O13: the masked form and the modular sum. -/
theorem absTimeIsModularSum : Obligations.AbsTimeIsModularSum := fun w tb =>
  ⟨absTime_eq_add_and w tb, toNat_absTime w tb⟩

/-- Settles O15: the three bit ranges are the fields x, y and p. -/
theorem monoDxypResult : Obligations.MonoDxypResult :=
  ⟨decodeCmd_encode .monoDxyp, fun _ _ hinp => exec_monoDxyp hinp⟩

/-- Settles O16: the command completes with the masked sum and the fields x, y and p. -/
theorem monoDtxypResult : Obligations.MonoDtxypResult :=
  ⟨decodeCmd_encode .monoDtxyp, fun _ i hinp => by
    rw [exec_monoDtxyp hinp, absTime_eq_add_and i.w i.tb]
    rfl⟩

/-- Settles O17: the command completes with the masked sum. -/
theorem monoDtResult : Obligations.MonoDtResult :=
  ⟨decodeCmd_encode .monoDt, fun _ i hinp => by
    rw [exec_monoDt hinp, absTime_eq_add_and i.w i.tb]
    rfl⟩

end Sys2Proof.Machine
end

section
/-! SUPPORT. The word of TRIG.ENC as a mono word with x and y 0, its two written-out forms, and the polarity as the word's
top bit (42_trigger_codec.md R100, R101, R103). -/

namespace Sys2Proof.Machine

/-- The field p is the word's top bit (R101). -/
theorem unpack_p_eq_ofBool_msb (w : Word) : unpack w .p = BitVec.ofBool w.msb :=
  unpack_eq fun i hi => by
    obtain rfl : i = 0 := Nat.lt_one_iff.1 hi
    rw [BitVec.getLsbD_ofBool, decide_eq_true rfl, Bool.true_and, BitVec.msb_eq_getLsbD_last]

/-- The absolute time depends on the field dt of the word only (41_mono_codec.md R90). -/
theorem absTime_congr {w w' : Word} (tb : Word) (h : unpack w .dt = unpack w' .dt) : absTime w tb = absTime w' tb := by
  rw [absTime, absTime, h]

section
variable (p : BitVec 1) (dt : BitVec 32)

/-- The trigger word is the mono word with x and y 0 (R103). -/
theorem trigWord_eq_monoWord : trigWord p dt = monoWord p 0 0 dt :=
  word_eq_of_unpack fun f => by
    cases f with
    | dt => rw [unpack_monoWord_dt, trigWord, unpack_pack_same, BitVec.setWidth_eq]
    | x =>
      rw [unpack_monoWord_x, trigWord, unpack_pack_of_ne _ _ (by decide), unpack_pack_of_ne _ _ (by decide)]
      rfl
    | y =>
      rw [unpack_monoWord_y, trigWord, unpack_pack_of_ne _ _ (by decide), unpack_pack_of_ne _ _ (by decide)]
      rfl
    | p =>
      rw [unpack_monoWord_p, trigWord, unpack_pack_of_ne _ _ (by decide), unpack_pack_same, BitVec.setWidth_eq]

/-- The word of TRIG.ENC as a concatenation (R100): the two zero fields join to bits 62..32. -/
theorem trigWord_eq_append : trigWord p dt = p ++ (0 : BitVec 31) ++ dt := by
  have hzeros : p ++ (0 : BitVec 15) ++ (0 : BitVec 16) = p ++ (0 : BitVec 31) := by
    revert p
    decide
  calc trigWord p dt = p ++ (0 : BitVec 15) ++ (0 : BitVec 16) ++ dt :=
        (trigWord_eq_monoWord p dt).trans (monoWord_eq_append p 0 0 dt)
    _ = p ++ (0 : BitVec 31) ++ dt := congrArg (· ++ dt) hzeros

/-- The word of TRIG.ENC as the OR of its shifted inputs (R100): x and y add no bit. -/
theorem trigWord_eq_shift_or : trigWord p dt = (p.setWidth 64 <<< 63) ||| dt.setWidth 64 := by
  rw [trigWord_eq_monoWord, monoWord_eq_shift_or]
  simp

end

/-! ### The trigger decoders on an encoded word -/

section
variable {s : State} {j : InPorts} {p : BitVec 1} {x y dt : BitVec 32}

/-- TRIG.DP of a mono or trigger word drives its p (R103). -/
theorem exec_trigDp_monoWord (h : s.inp = some j) (hw : j.w = monoWord p x y dt) :
    exec .trigDp s = .next (s.complete { pOut := some p }) := by
  rw [exec_trigDp h, hw, unpack_monoWord_p]

/-- TRIG.DTP of a mono or trigger word drives its time and its p (R103). -/
theorem exec_trigDtp_monoWord (h : s.inp = some j) (hw : j.w = monoWord p x y dt) :
    exec .trigDtp s = .next (s.complete { t := some (j.tb + dt.setWidth 64), pOut := some p }) := by
  rw [exec_trigDtp h, hw, absTime_monoWord, unpack_monoWord_p]

end

end Sys2Proof.Machine
end

section
/-! The statements on the trigger event codec (42_trigger_codec.md). -/

namespace Sys2Proof.Machine

/-- Settles O20: the trigger word in its two written-out forms. -/
theorem trigEncResult : Obligations.TrigEncResult :=
  ⟨decodeCmd_encode .trigEnc, fun _ i hinp =>
    ⟨trigWord i.p i.dt, trigWord_eq_append i.p i.dt, trigWord_eq_shift_or i.p i.dt, exec_trigEnc hinp⟩⟩

/-- Settles O23: a trigger word is a mono word with x and y 0, and the trigger decoders read the fields p and dt only. -/
theorem triggerMonoInterwork : Obligations.TriggerMonoInterwork := by
  refine ⟨fun s i hinp hx hy => ⟨_, exec_trigEnc hinp, ?_⟩, fun s i j hmsb hlow htb => ?_,
    fun s i j hinp => ⟨_, monoWord i.p i.x i.y i.dt, exec_monoEnc hinp, rfl, fun hw =>
      ⟨_, _, exec_trigDp_monoWord rfl hw, rfl, exec_trigDtp_monoWord rfl hw, rfl⟩⟩,
    fun s i j hinp => ⟨_, trigWord i.p i.dt, exec_trigEnc hinp, rfl, fun hw => ?_⟩⟩
  · rw [exec_monoEnc hinp, hx, hy, trigWord_eq_monoWord]
  · have hp : unpack i.w .p = unpack j.w .p := by rw [unpack_p_eq_ofBool_msb, unpack_p_eq_ofBool_msb, hmsb]
    have ht : absTime i.w i.tb = absTime j.w j.tb := htb ▸ absTime_congr i.tb hlow
    rw [exec_trigDp rfl, exec_trigDp rfl, exec_trigDtp rfl, exec_trigDtp rfl, hp, ht]
    exact ⟨rfl, rfl⟩
  · rw [trigWord_eq_monoWord] at hw
    have hx : unpack j.w .x = 0 := by rw [hw, unpack_monoWord_x]; rfl
    have hy : unpack j.w .y = 0 := by rw [hw, unpack_monoWord_y]; rfl
    exact ⟨_, _, exec_trigDtp_monoWord rfl hw, rfl, exec_monoDtxyp rfl, congrArg some hx, congrArg some hy,
      _, exec_monoDxyp rfl, congrArg some hx, congrArg some hy⟩

/-- Settles O21: the command completes with the field p, the word's top bit. -/
theorem trigDpResult : Obligations.TrigDpResult :=
  ⟨decodeCmd_encode .trigDp, fun _ i hinp => by
    rw [exec_trigDp hinp, unpack_p_eq_ofBool_msb i.w]
    rfl⟩

/-- Settles O22: the command completes with the masked sum and the word's top bit. -/
theorem trigDtpResult : Obligations.TrigDtpResult :=
  ⟨decodeCmd_encode .trigDtp, fun _ i hinp => by
    rw [exec_trigDtp hinp, absTime_eq_add_and i.w i.tb, unpack_p_eq_ofBool_msb i.w]
    rfl⟩

end Sys2Proof.Machine
end

section
/-! SUPPORT. A record write under a record read: eight or more bytes apart, and of the word that stands there
(43_record_access.md R112, laws 2 and 3). -/

namespace Sys2Proof.Machine

/-- A record write leaves every record eight or more bytes away (R112, law 2). -/
theorem Memory.readRecord_writeRecord_apart (m : Memory) {a b : Nat} (w : Word) (h : a + 8 ≤ b ∨ b + 8 ≤ a) :
    (m.writeRecord a w).readRecord b = m.readRecord b :=
  Memory.readRecord_congr fun _ _ => m.read_writeRecord_outside w (by omega)

/-- Writing back the record that stands at an address changes no byte (R112, law 3). -/
theorem Memory.read_writeRecord_readRecord (m : Memory) (a b : Nat) :
    (m.writeRecord a (m.readRecord a)).read b = m.read b := by
  by_cases hb : b < a ∨ a + 8 ≤ b
  · exact m.read_writeRecord_outside _ hb
  · obtain ⟨k, rfl⟩ : ∃ k, b = a + k := ⟨b - a, by omega⟩
    have hk : k < 8 := by omega
    rw [m.read_writeRecord_inside a _ hk, m.wordByte_readRecord a hk]

/-- In canonical form, where its bytes determine a memory, the write-back is the memory itself (R112, law 3). -/
theorem Memory.writeRecord_readRecord {m : Memory} (h : m.wf) (a : Nat) : m.writeRecord a (m.readRecord a) = m :=
  Memory.eq_of_read (Memory.wf_writeRecord a _ h) h (m.read_writeRecord_readRecord a)

end Sys2Proof.Machine
end

section
/-! The statements on the two record commands (43_record_access.md). -/

namespace Sys2Proof.Machine

/-- Settles O27: in bounds the command completes with the record read; out of bounds it takes the fault. -/
theorem recLdResult : Obligations.RecLdResult :=
  ⟨decodeCmd_encode .recLd, fun s i hinp =>
    ⟨fun inside => ⟨s.mem.readRecord i.addr.toNat, fun _ hk => s.mem.wordByte_readRecord i.addr.toNat hk,
      exec_recLd hinp inside⟩,
    fun outside => exec_recLd_outside hinp (Nat.not_le_of_lt outside)⟩⟩

/-- Settles O28: in bounds the command completes with the record written; out of bounds it takes the fault. -/
theorem recStResult : Obligations.RecStResult :=
  ⟨decodeCmd_encode .recSt, fun s i hinp =>
    ⟨fun inside => ⟨s.mem.writeRecord i.addr.toNat i.w,
      fun _ hk => s.mem.read_writeRecord_inside i.addr.toNat i.w hk,
      fun _ hb => s.mem.read_writeRecord_outside i.w hb, exec_recSt hinp inside⟩,
    fun outside => exec_recSt_outside hinp (Nat.not_le_of_lt outside)⟩⟩

/-- Settles O30: each law is a law of the record read and write that the two commands perform. -/
theorem recordAccessLaws : Obligations.RecordAccessLaws := by
  intro s i j hinp hi hj
  refine ⟨⟨_, exec_recSt hinp hi, fun u q hu hq hlen hmem => ?_⟩, fun hapart => ?_,
    ⟨_, s.mem.readRecord i.addr.toNat, exec_recLd hinp hi, rfl, s.mem.toNat_readRecord i.addr.toNat,
      fun hwf haddr hw => ?_⟩⟩
  · have inside : u.inBounds q.addr := hq ▸ hi.trans hlen.ge
    have hload : u.mem.readRecord q.addr.toNat = i.w :=
      hq ▸ (Memory.readRecord_congr hmem).trans (s.mem.readRecord_writeRecord i.addr.toNat i.w)
    exact ⟨_, exec_recLd hu inside, congrArg some hload⟩
  · refine ⟨_, _, _, exec_recSt hinp hi, exec_recLd rfl hj, exec_recLd rfl hj, ?_, rfl⟩
    simp only [State.complete_out, State.complete_mem, s.mem.readRecord_writeRecord_apart i.w hapart]
  · refine ⟨_, exec_recSt rfl hj, ?_⟩
    simp only [State.complete_mem, haddr, hw]
    exact Memory.writeRecord_readRecord hwf i.addr.toNat

end Sys2Proof.Machine
end

section
/-! SUPPORT. The transaction that faults: the byte that spells no operation, the record access out of bounds, and the state
either leaves (60_exceptions.md R122, R123, R125). -/

namespace Sys2Proof.Machine

theorem State.present_cmd {s : State} {l : Line} {p : InPorts} (h : s.present l = .ok p) : p.cmd = l.cmd := by
  obtain ⟨-, args, -, rfl⟩ := State.present_ok h
  rfl

theorem perform_of_illegal {s : State} {p : InPorts} {e : Illegal} (h : decodeCmd p.cmd = .error e) :
    perform s p = .next (s.takeFault (.illegalCommand p.cmd)) := by
  simp [perform, h]

/-- A step whose head is a presented transaction, by the state its transaction leaves. -/
theorem step_of_perform {s u : State} {l : Line} {rest : List HostMove} {p : InPorts}
    (hm : s.moves = .transact l :: rest) (hp : s.present l = .ok p) (hu : perform (s.issue rest p) p = .next u) :
    step s = .next (u.bind l.results) := by
  rw [step_transact hm hp, hu, onNext_next]

/-- A transaction that faults leaves the state before it but for the fault output, one log entry, and the host's own list,
index and names (R125). -/
theorem State.bind_takeFault_issue (s : State) (rest : List HostMove) (p : InPorts) (c : FaultCause)
    (results : List (Nat × OutPort)) :
    ∃ bound : List HostVal, bound.map HostVal.name = results.map Prod.fst ∧
      ((s.issue rest p).takeFault c).bind results = { s with
        inp := none, index := s.index + 1, moves := rest, out := { fault := some c.code },
        faults := s.faults ++ [⟨s.index, c⟩], vals := s.vals ++ bound } :=
  ⟨results.map fun r => ⟨r.1, (faultOutputs c).read r.2⟩, by simp [Function.comp_def], rfl⟩

end Sys2Proof.Machine
end

section
/-! The statements on faults: which transactions fault, with which code, and what a fault leaves unchanged
(60_exceptions.md). -/

namespace Sys2Proof.Machine

/-- Settles O35: a command that is no record access has no bounds test, so it completes. -/
theorem codecCommandsNeverFault : Obligations.CodecCommandsNeverFault := by
  intro s p i hld hst hinp
  have hcodec : ¬ CmdOutside i s.bufLen p := fun ⟨hrec, _⟩ => hrec.elim hld hst
  exact ⟨_, exec_inside hinp hcodec, rfl, rfl⟩

/-- Settles O36: a byte that does not decode faults, and one that does runs its command, in bounds or out of bounds. -/
theorem everyTransactionCompletesWithItsCode : Obligations.EveryTransactionCompletesWithItsCode := by
  intro s l rest p hm hp
  have hinp : (s.issue rest p).inp = some p := State.issue_inp s rest p
  cases hd : decodeCmd p.cmd with
  | error e => exact ⟨_, step_of_perform hm hp (perform_of_illegal hd), rfl, rfl, rfl, _, rfl, rfl, rfl, rfl⟩
  | ok i =>
    by_cases hout : (i = .recLd ∨ i = .recSt) ∧ s.bufLen < p.addr.toNat + 8
    · have houtside : CmdOutside i s.bufLen p := hout.imp_right Nat.not_le_of_lt
      refine ⟨_, step_of_perform hm hp ((perform_of_decode hd).trans (exec_outside hinp houtside)), rfl, rfl, ?_⟩
      simp only [if_pos hout]
      exact ⟨rfl, _, rfl, rfl, rfl, rfl⟩
    · have hinside : ¬ CmdOutside i s.bufLen p := fun h => hout (h.imp_right Nat.lt_of_not_le)
      refine ⟨_, step_of_perform hm hp ((perform_of_decode hd).trans (exec_inside hinp hinside)), rfl, rfl, ?_⟩
      simp only [if_neg hout]
      exact ⟨rfl, rfl⟩

/-- Settles O37: the bytes listed are those the decoder rejects, so the transaction takes the IllegalCommand fault. -/
theorem illegalCommandFaults : Obligations.IllegalCommandFaults := by
  intro s l rest p hm hp hbyte
  have hcmd : p.cmd = l.cmd := State.present_cmd hp
  cases hd : decodeCmd p.cmd with
  | ok i => exact absurd (hcmd ▸ hd) ((illegalBytesAreExactlyTheReserved l.cmd).2 hbyte i)
  | error e =>
    rw [step_of_perform hm hp (perform_of_illegal hd), hcmd]
    obtain ⟨bound, hnames, hstate⟩ := s.bind_takeFault_issue rest p (.illegalCommand l.cmd) l.results
    exact ⟨bound, hnames, congrArg _ hstate⟩

/-- Settles O38: the byte decodes to a record command, whose bounds test comes before every byte of memory. -/
theorem recordOutOfBoundsFaults : Obligations.RecordOutOfBoundsFaults := by
  intro s l rest p hm hp hbyte hout
  obtain ⟨i, hd, hrec⟩ : ∃ i, decodeCmd p.cmd = .ok i ∧ (i = .recLd ∨ i = .recSt) := by
    rw [State.present_cmd hp]
    obtain h | h := hbyte
    · exact ⟨.recLd, h ▸ decodeCmd_encode .recLd, .inl rfl⟩
    · exact ⟨.recSt, h ▸ decodeCmd_encode .recSt, .inr rfl⟩
  have houtside : CmdOutside i (s.issue rest p).bufLen p := ⟨hrec, Nat.not_le_of_lt hout⟩
  rw [step_of_perform hm hp ((perform_of_decode hd).trans (exec_outside (State.issue_inp s rest p) houtside))]
  obtain ⟨bound, hnames, hstate⟩ := s.bind_takeFault_issue rest p (.recordOutOfBounds p.addr) l.results
  exact ⟨bound, hnames, congrArg _ hstate⟩

/-- Settles O39: of the three ends of a transaction only the fault leaves a code other than 0. -/
theorem faultsArePrecise : Obligations.FaultsArePrecise := by
  intro s t l rest hm h hfault
  obtain ⟨p, u, hends, rfl⟩ := step_transact_next hm h
  cases hends with
  | completes o => exact absurd rfl hfault
  | stores a w _ => exact absurd rfl hfault
  | faults c _ =>
    obtain ⟨bound, hnames, hstate⟩ := s.bind_takeFault_issue rest p c l.results
    exact ⟨⟨s.index, c⟩, bound, rfl, hnames, hstate⟩

end Sys2Proof.Machine
end

section
/-! The statement on a reset between transactions: what it leaves unchanged (70_reset_and_hazards.md R140, R141). -/

namespace Sys2Proof.Machine

/-- Settles O53: a reset step is the silent machine with the list moved on (`step_reset`); silence is the two port fields
alone, so memory, log, index and host values are the old ones. -/
theorem resetHasNoArchitecturalEffect : Obligations.ResetHasNoArchitecturalEffect := fun _ _ hm => step_reset hm

end Sys2Proof.Machine
end
